-- ==== Sys2Proof/Word.lean ====
section
/-! DEFINITION. The widths the block works with (10_state.md R36 and R39, 00_scope.md R5), as bit-vector types. Bit 0 is the least
significant bit of each (R6); every vector is unsigned and `val(v)` of the spec is `v.toNat` (R7). -/

namespace Sys2Proof

/-- A 128-bit value: ports `a`, `b` and `r` (R32). -/
abbrev Uint128 := BitVec 128

/-- One 64-bit half of a value: `high` or `low` (R13, R24 "Halfword"). -/
abbrev Half := BitVec 64

/-- The operation select `op[4:0]` (30_encoding.md R63). -/
abbrev OpCode := BitVec 5

/-- The shift amount port `n[63:0]`, unsigned (R38). -/
abbrev ShAmt := BitVec 64

/-- The count output `cnt[7:0]` (R41). -/
abbrev Count := BitVec 8

/-- The compare output `cmp[1:0]` (R40). -/
abbrev CmpCode := BitVec 2

/-- A one-bit port: `cin`, `cout`, `zf`, `ill`. -/
abbrev Bit := BitVec 1

/-- One byte of a value (R22). -/
abbrev Byte := BitVec 8

end Sys2Proof
end

