-- ==== Sys2Proof/Config.lean ====
section
/-! DEFINITION. The implementation parameters (00_scope.md R5) and the free values: what the spec leaves open and no proof may see. -/

namespace Sys2Proof.Config

/-- Value width `W` (R5). -/
abbrev W : Nat := 128
/-- Halfword width `H` (R5). -/
abbrev H : Nat := 64
/-- Operation-select width `OPW` (R5). -/
abbrev OPW : Nat := 5
/-- Shift-amount width `SHAMT_W` (R5). -/
abbrev SHAMT_W : Nat := 64
/-- Count-output width `CNT_W` (R5). -/
abbrev CNT_W : Nat := 8
/-- Compare-output width `CMP_W` (R5). -/
abbrev CMP_W : Nat := 2
/-- Carry-in width (R5). -/
abbrev CIN_W : Nat := 1
/-- `LATENCY` in clock cycles: combinational (R5, 70_reset_and_hazards.md R158). -/
abbrev LATENCY : Nat := 0

/-- `T_PD`, the propagation delay (R5, R158, 92_eei_decisions.md P1): OPEN, and read by no rule. Log entry 5. -/
opaque T_PD : Nat

/-! The levels an output port shows while the outputs are unspecified (R156, R160; U5 and U6 of
93_implementation_defined.md: "any value (a free draw)"). The argument counts the draws. Log entry 3.
There is one sequence for every copy of the block and every run: the model's choice, log entry 13. -/

/-- A free draw of the output `r`. -/
opaque freeR : Nat → Uint128
/-- A free draw of the output `cout`. -/
opaque freeCout : Nat → Bit
/-- A free draw of the output `cmp`. -/
opaque freeCmp : Nat → CmpCode
/-- A free draw of the output `cnt`. -/
opaque freeCnt : Nat → Count
/-- A free draw of the output `zf`. -/
opaque freeZf : Nat → Bit
/-- A free draw of the output `ill`. -/
opaque freeIll : Nat → Bit

end Sys2Proof.Config
end

