-- ==== Sys2Proof/Syntax.lean ====
section
/-! DEFINITION. The operations (00_scope.md R2, 30_encoding.md R65), the ports (10_state.md R36, R39), what each operation reads and
drives (R66), the one operation format (R63), and an operation as a line of assembler (R70). -/

namespace Sys2Proof

/-- The 20 operations, in the order of the opcode map (R65). None has an operand field: every operand arrives on its own
port (R63, R69). -/
inductive Instr where
  | cmp | isz
  | and | andn | or | xor | not
  | shl | shr
  | addc | add | inc | sub | dec
  | blen | clz | ctz | popc
  | brev | bswap
  deriving DecidableEq, Repr

/-- The input ports (10_state.md R36). -/
inductive InPort where
  | op | a | b | cin | n
  deriving DecidableEq, Repr

/-- The output ports (10_state.md R39). -/
inductive OutPort where
  | r | cout | cmp | cnt | zf | ill
  deriving DecidableEq, Repr

/-- The one operation format (R63): the operation select with the operand ports (R36). -/
structure Inputs where
  op  : OpCode
  a   : Uint128
  b   : Uint128
  cin : Bit
  n   : ShAmt
  deriving DecidableEq, Repr

/-- The operand ports an operation reads, in the order of the source's signature (R66, R70). -/
def Instr.reads : Instr → List InPort
  | .cmp | .and | .andn | .or | .xor | .add | .sub => [.a, .b]
  | .shl | .shr => [.a, .n]
  | .addc => [.a, .b, .cin]
  | .isz | .not | .inc | .dec | .blen | .clz | .ctz | .popc | .brev | .bswap => [.a]

/-- The outputs an operation drives, in the order of R70 (R66). -/
def Instr.drives : Instr → List OutPort
  | .cmp => [.cmp]
  | .isz => [.zf]
  | .and | .andn | .or | .xor | .not | .shl | .shr | .add | .inc | .sub | .dec | .brev | .bswap => [.r]
  | .addc => [.r, .cout]
  | .blen | .clz | .ctz | .popc => [.cnt]

/-- The four units of the field `op[4:3]` (R64). -/
inductive OpUnit where
  | compareLogic | shifter | adder | bitcount
  deriving DecidableEq, Repr

/-- The unit an operation belongs to (R64, R65). -/
def Instr.unit : Instr → OpUnit
  | .cmp | .isz | .and | .andn | .or | .xor | .not => .compareLogic
  | .shl | .shr => .shifter
  | .addc | .add | .inc | .sub | .dec => .adder
  | .blen | .clz | .ctz | .popc | .brev | .bswap => .bitcount

/-- An operand as an assembler line writes it (R70). A host variable stands for the value it holds (log entry 9). -/
inductive Operand where
  /-- A pair `(h, l)`: the value `{bv_64(h), bv_64(l)}` (00_scope.md R25). -/
  | pair (high low : Nat)
  /-- A hexadecimal literal of the 128-bit value. -/
  | hex (value : Nat)
  /-- A decimal count: a shift amount or a carry-in. -/
  | count (k : Nat)
  deriving DecidableEq, Repr

/-- `<outputs> = <MNEMONIC> <operand>, <operand>, ...` (R70). -/
structure Line where
  outputs  : List OutPort
  instr    : Instr
  operands : List Operand
  deriving DecidableEq, Repr

end Sys2Proof
end

