-- ==== Sys2Proof/WellFormed.lean ====
section
/-! DEFINITION. Well-formedness of an assembler line (30_encoding.md R70, with the port widths of 10_state.md R36 to R38). An
operation alone (`Instr`) has no operand fields, so there is nothing to check in it (R63). -/

namespace Sys2Proof

/-- Whether an operand may stand for an input port: a 128-bit port takes a pair (reduced as 00_scope.md R25 says) or a
hexadecimal literal of at most 128 bits, `n` a count of at most 64 bits (R38), `cin` a count 0 or 1. A carry-in other than
0 or 1 is the source's undefined input and is refused (10_state.md R37, 93_implementation_defined.md U1). -/
def Operand.fits : InPort → Operand → Bool
  | .a, .pair _ _ | .b, .pair _ _ => true
  | .a, .hex v | .b, .hex v => v < 2 ^ 128
  | .n, .count k => k < 2 ^ 64
  | .cin, .count k => k < 2
  | _, _ => false

/-- One operand for each port, each fitting its port. -/
def operandsFit : List InPort → List Operand → Bool
  | [], [] => true
  | p :: ps, x :: xs => x.fits p && operandsFit ps xs
  | _, _ => false

/-- The outputs are those the operation drives, in R70's order, and the operands fit the ports it reads, in R70's order. -/
def Line.wellFormed (l : Line) : Bool :=
  l.outputs == l.instr.drives && operandsFit l.instr.reads l.operands

end Sys2Proof
end

