-- ==== Sys2Proof/Decode.lean ====
section
/-! DEFINITION. Decoding the operation select (30_encoding.md R64, R65, R67), the encoder written from the same map, and an assembler
line (R70) put on the ports and read back from them (R69). The block fetches nothing (10_state.md R33): the "word" of an
operation is the 5-bit value the host drives on `op`. -/

namespace Sys2Proof

/-- What a value of `op` selects: one of the 20 operations, or `Reserved` (R67). -/
inductive Decoded where
  | operation (i : Instr)
  | reserved
  deriving DecidableEq, Repr

/-- The opcode map, total on all 32 values (R65, R67). -/
def decode (op : OpCode) : Decoded :=
  match op.toNat with
  | 0b00000 => .operation .cmp
  | 0b00001 => .operation .isz
  | 0b00010 => .operation .and
  | 0b00011 => .operation .andn
  | 0b00100 => .operation .or
  | 0b00101 => .operation .xor
  | 0b00110 => .operation .not
  | 0b01000 => .operation .shl
  | 0b01001 => .operation .shr
  | 0b10000 => .operation .addc
  | 0b10001 => .operation .add
  | 0b10010 => .operation .inc
  | 0b10011 => .operation .sub
  | 0b10100 => .operation .dec
  | 0b11000 => .operation .blen
  | 0b11001 => .operation .clz
  | 0b11010 => .operation .ctz
  | 0b11011 => .operation .popc
  | 0b11100 => .operation .brev
  | 0b11101 => .operation .bswap
  | _ => .reserved

/-- The select of an operation (R65): `op[4:3]` is the unit, `op[2:0]` the function within it (R64). -/
def encode : Instr → OpCode
  | .cmp   => 0b00000#5
  | .isz   => 0b00001#5
  | .and   => 0b00010#5
  | .andn  => 0b00011#5
  | .or    => 0b00100#5
  | .xor   => 0b00101#5
  | .not   => 0b00110#5
  | .shl   => 0b01000#5
  | .shr   => 0b01001#5
  | .addc  => 0b10000#5
  | .add   => 0b10001#5
  | .inc   => 0b10010#5
  | .sub   => 0b10011#5
  | .dec   => 0b10100#5
  | .blen  => 0b11000#5
  | .clz   => 0b11001#5
  | .ctz   => 0b11010#5
  | .popc  => 0b11011#5
  | .brev  => 0b11100#5
  | .bswap => 0b11101#5

/-- The value of `op[4:3]` for each unit (R64). -/
def OpUnit.code : OpUnit → BitVec 2
  | .compareLogic => 0b00#2
  | .shifter => 0b01#2
  | .adder => 0b10#2
  | .bitcount => 0b11#2

/-- The field `op[4:3]` (R64). -/
def unitField (op : OpCode) : BitVec 2 := op.extractLsb' 3 2

/-- The field `op[2:0]` (R64). -/
def fnField (op : OpCode) : BitVec 3 := op.extractLsb' 0 3

/-- Why a number is not an operation. -/
inductive DecodeReject where
  /-- A value of the 5-bit port that selects no operation (R67). -/
  | reserved
  /-- A number that does not fit the 5-bit port (R63). Log entry 8. -/
  | widerThanOp
  deriving DecidableEq, Repr

/-- Decoding of any number, rejecting by name. -/
def decodeWord (w : Nat) : Except DecodeReject Instr :=
  if w < 2 ^ 5 then
    match decode (BitVec.ofNat 5 w) with
    | .operation i => .ok i
    | .reserved => .error .reserved
  else .error .widerThanOp

/-- The operation the decoder reads from a word of `nbits` bits; bit 0 is `op[0]` (R64). -/
def decodeTableWord (_nbits w : Nat) : Option Instr :=
  match decodeWord w with
  | .ok i => some i
  | .error _ => none

/-- The number an operand stands for: a pair is `{bv_64(h), bv_64(l)}` (00_scope.md R25). -/
def Operand.value : Operand → Nat
  | .pair h l => (h % 2 ^ 64) * 2 ^ 64 + l % 2 ^ 64
  | .hex v => v
  | .count k => k

/-- The input ports with one port's level replaced. -/
def Inputs.put (p : Inputs) (port : InPort) (v : Nat) : Inputs :=
  match port with
  | .op => { p with op := BitVec.ofNat 5 v }
  | .a => { p with a := BitVec.ofNat 128 v }
  | .b => { p with b := BitVec.ofNat 128 v }
  | .cin => { p with cin := BitVec.ofNat 1 v }
  | .n => { p with n := BitVec.ofNat 64 v }

/-- Each operand on its port, with no scaling, masking or sign extension (R69). -/
def putOperands : List InPort → List Operand → Inputs → Inputs
  | p :: ps, x :: xs, i => putOperands ps xs (i.put p x.value)
  | _, _, i => i

/-- A line as the host drives it (R63, R69): the select on `op`, each operand on the port it is for. The ports the operation does
not read stay at the levels `held` that the host has there (R42: they have no effect). -/
def Line.ports (l : Line) (held : Inputs) : Inputs :=
  putOperands l.instr.reads l.operands { held with op := encode l.instr }

/-- The operand a port's level is written as: a 128-bit level as a pair of halves, the others as a count. -/
def Inputs.operand (p : Inputs) : InPort → Operand
  | .a => .pair (p.a.toNat / 2 ^ 64) (p.a.toNat % 2 ^ 64)
  | .b => .pair (p.b.toNat / 2 ^ 64) (p.b.toNat % 2 ^ 64)
  | .cin => .count p.cin.toNat
  | .n => .count p.n.toNat
  | .op => .count p.op.toNat

/-- The line that the levels on the ports stand for; none for a reserved select. -/
def readLine (p : Inputs) : Option Line :=
  match decode p.op with
  | .operation i => some { outputs := i.drives, instr := i, operands := i.reads.map p.operand }
  | .reserved => none

/-- A 128-bit operand as its pair of halves; a count as it is. -/
def Operand.canonical : Operand → Operand
  | .pair h l => .pair (h % 2 ^ 64) (l % 2 ^ 64)
  | .hex v => .pair (v / 2 ^ 64) (v % 2 ^ 64)
  | .count k => .count k

/-- The line with every operand in canonical form. -/
def Line.canonical (l : Line) : Line :=
  { l with operands := l.operands.map Operand.canonical }

end Sys2Proof
end

