-- ==== Sys2Proof/Machine/State.lean ====
section
/-! DEFINITION. What the ports carry, as plain data. The block stores nothing (10_state.md R30): a state is a snapshot of the levels on
its ports, with whether each input is driven and whether the outputs have settled (log entry 1). -/

namespace Sys2Proof.Machine

/-- The output ports (10_state.md R39). -/
structure Outputs where
  r    : Uint128
  cout : Bit
  cmp  : CmpCode
  cnt  : Count
  zf   : Bit
  ill  : Bit
  deriving DecidableEq, Repr

/-- Every output at its default, all zeros (R39). -/
def Outputs.zero : Outputs := { r := 0#128, cout := 0#1, cmp := 0#2, cnt := 0#8, zf := 0#1, ill := 0#1 }

/-- The `k`-th free draw of the outputs: what the ports show while the outputs are unspecified (R156, R160). Log entry 3.
DESIGN CHOICE, unsafe (log entry 13): every copy of the block, and every run, draws from this ONE sequence, so two copies (or two
runs) with equal counters, both just powered up for one, show equal outputs here. The spec leaves each any value (R45, R156, U5)
and says nothing of their agreeing. -/
def Outputs.drawn (k : Nat) : Outputs :=
  { r := Config.freeR k, cout := Config.freeCout k, cmp := Config.freeCmp k, cnt := Config.freeCnt k,
    zf := Config.freeZf k, ill := Config.freeIll k }

/-- For each input port, whether the host drives it to a defined level (R156, R157; floating otherwise, U6). -/
structure Driven where
  op  : Bool
  a   : Bool
  b   : Bool
  cin : Bool
  n   : Bool
  deriving DecidableEq, Repr

/-- No port driven: power-up. -/
def Driven.none : Driven := { op := false, a := false, b := false, cin := false, n := false }

/-- Every port driven. -/
def Driven.every : Driven := { op := true, a := true, b := true, cin := true, n := true }

/-- Whether every input is driven to a defined level (R156, R157). -/
def Driven.all (d : Driven) : Bool := d.op && d.a && d.b && d.cin && d.n

/-- The ports of one copy of the block. -/
structure State where
  /-- The level on each input port; of no meaning while the port is not driven. -/
  inp : Inputs
  /-- Which input ports the host drives. -/
  driven : Driven
  /-- The level each output port shows. -/
  out : Outputs
  /-- Whether `T_PD` has passed with every input driven and held (00_scope.md R24 "settled"). -/
  settled : Bool
  /-- The model's own: how many free draws of the outputs were made. Log entry 3. -/
  draws : Nat
  deriving DecidableEq, Repr

/-- Why a run may stop. No operation ever raises one (60_exceptions.md R140). -/
inductive Fault where
  /-- `cmp` shows `0b10`, a pattern that is never driven (10_state.md R40; 93_implementation_defined.md U8: "a model that meets it
  has a bug, `fault`"). Raised by the host-side reading `readCmp` only. Safe: it stops. -/
  | cmpPatternNeverDriven
  deriving DecidableEq, Repr

/-- Why an operation may have no meaning. -/
inductive Refusal where
  /-- The operation has no meaning in this model yet. Raised by `exec`'s arms only; no arm of this model raises it. Safe. -/
  | notModelled (mnemonic : String)
  deriving DecidableEq, Repr

/-- Power-up (R45, R155, R156): the host drives nothing yet, nothing has settled, the outputs are unspecified. The block has no
reset input and no stored value to reset. The input levels are placeholders of undriven ports (log entry 2). That two copies at
power-up show the same draw 0 is the model's choice, not the spec's (log entry 13). -/
def State.reset : State :=
  { inp := { op := 0#5, a := 0#128, b := 0#128, cin := 0#1, n := 0#64 },
    driven := Driven.none, out := Outputs.drawn 0, settled := false, draws := 1 }

end Sys2Proof.Machine
end

