-- ==== Sys2Proof/Machine/Halfword.lean ====
section
/-! DEFINITION. The halfword primitives of 00_scope.md section 5 (R13 to R23), each total on every input. -/

namespace Sys2Proof.Machine

/-- `hi(v) = v[127:64]`, the source's `high` (R13). -/
def hi (v : Uint128) : Half := v.extractLsb' 64 64

/-- `lo(v) = v[63:0]`, the source's `low` (R13). -/
def lo (v : Uint128) : Half := v.extractLsb' 0 64

/-- `{h, l}`: the value with high half `h` and low half `l` (R8, R13, R25). -/
def pair (h l : Half) : Uint128 := h ++ l

/-- `b2v(c)`: 1 when the condition holds, 0 when it does not (R10). -/
def b2v (c : Bool) : Bit := BitVec.ofBool c

/-- `add64c`: 64-bit addition with carry in and carry out (R14). -/
def add64c (x y : Half) (c : Bit) : Half × Bit :=
  let t := x.toNat + y.toNat + c.toNat
  (BitVec.ofNat 64 t, b2v (decide (2 ^ 64 ≤ t)))

/-- `sub64`: 64-bit subtraction, wrapping modulo 2^64 (R15). -/
def sub64 (x y : Half) : Half := x - y

/-- `shl64`: left shift, 0 for every amount of 64 or more (R16). -/
def shl64 (v : Half) (k : Nat) : Half := v <<< k

/-- `shr64`: logical right shift, 0 for every amount of 64 or more (R17). -/
def shr64 (v : Half) (k : Nat) : Half := v >>> k

/-- 1 + the highest set bit below `k`, 0 when there is none. -/
def bitlenBelow (v : Half) : Nat → Nat
  | 0 => 0
  | k + 1 => if v.getLsbD k then k + 1 else bitlenBelow v k

/-- `bitlen64`: 0 for zero, else 1 + the index of the highest set bit (R18). -/
def bitlen64 (v : Half) : Nat := bitlenBelow v 64

/-- `tz64`: the index of the lowest set bit, 64 for zero (R19). -/
def tz64 (v : Half) : Nat := (List.range 64).findIdx fun i => v.getLsbD i

/-- `pop64`: the number of set bits (R20). -/
def pop64 (v : Half) : Nat := (List.range 64).countP fun i => v.getLsbD i

/-- Bits `0` to `k - 1` of `v`, bit `j` put at bit `63 - j`. -/
def revBelow (v : Half) : Nat → Half
  | 0 => 0#64
  | k + 1 => if v.getLsbD k then revBelow v k ||| BitVec.twoPow 64 (63 - k) else revBelow v k

/-- `rev64`: bit `i` of the result is bit `63 - i` of `v` (R21). -/
def rev64 (v : Half) : Half := revBelow v 64

/-- Byte `k` of a vector, bits `8k+7` to `8k`; byte 0 is the least significant (R22). -/
def byteOf {w : Nat} (v : BitVec w) (k : Nat) : Byte := v.extractLsb' (8 * k) 8

/-- `bswap64`: byte `k` of the result is byte `7 - k` of `v` (R23). -/
def bswap64 (v : Half) : Half :=
  byteOf v 0 ++ byteOf v 1 ++ byteOf v 2 ++ byteOf v 3 ++ byteOf v 4 ++ byteOf v 5 ++ byteOf v 6 ++ byteOf v 7

end Sys2Proof.Machine
end

