-- ==== Sys2Proof/Machine/Ops.lean ====
section
/-! DEFINITION. The shared operations on the ports: what a change of inputs does to the outputs, what an operation shows once settled,
and the one abnormal condition, ILLEGAL_OP (60_exceptions.md R141, R142). There is no return from an exception: nothing is
saved, and the next operation is whatever the host presents next (R146, R147). -/

namespace Sys2Proof.Machine

/-- The outputs are unspecified (R156, R160): a fresh free draw. -/
def State.redraw (s : State) : State :=
  { s with out := Outputs.drawn s.draws, settled := false, draws := s.draws + 1 }

/-- `T_PD` has passed with every input held: the output ports show `o` (R58). The inputs are never written (R35). -/
def State.shows (s : State) (o : Outputs) : State := { s with out := o, settled := true }

/-- One evaluation of the block (R158) whose function on the held inputs is `f`. With an input that is not driven to a defined level
the outputs stay unspecified (R156, U6). Log entries 5 and 12. -/
def evaluate (s : State) (f : Inputs → Outputs) : Host.Outcome State Fault Refusal :=
  if s.driven.all then .next (s.shows (f s.inp)) else .next s.redraw

/-- The outputs of an operation that drives `r` alone (R39, R66). -/
def onlyR (v : Uint128) : Outputs := { Outputs.zero with r := v }

/-- The outputs of an operation that drives `cnt` alone, `cnt <- bv_8(c)` (R39, R66, 44_bitcount.md R125). -/
def onlyCnt (c : Nat) : Outputs := { Outputs.zero with cnt := BitVec.ofNat 8 c }

/-- ILLEGAL_OP (R141): what a reserved code drives, whatever the operands are (R142). -/
def illegalOutputs : Outputs := { Outputs.zero with ill := 1#1 }

/-- Taking the one abnormal condition: `ill` is driven and nothing is recorded, saved or redirected (R141, R142, R146). -/
def takeIllegalOp (s : State) : Host.Outcome State Fault Refusal := evaluate s fun _ => illegalOutputs

end Sys2Proof.Machine
end

