-- ==== Sys2Proof/Machine/Operands.lean ====
section
/-! DEFINITION. Operand assembly (30_encoding.md R69): what an operation reads from the input ports. There are no immediates and no
operand is scaled, masked or sign-extended. -/

namespace Sys2Proof.Machine

/-- The shift amount of SHL and SHR: `val(n)` (R69, 42_shift.md R100). -/
def shiftAmount (p : Inputs) : Nat := p.n.toNat

/-- The carry-in of ADDC: the one bit on `cin` (R69, 10_state.md R37). -/
def carryIn (p : Inputs) : Bit := p.cin

/-- The value 1, `(0, 1)`, which INC and DEC take in the place of `b` (43_addsub.md R113, R115). -/
def one128 : Uint128 := pair 0#64 1#64

/-- Whether two sets of levels are the same on one port. -/
def samePort (p q : Inputs) : InPort → Bool
  | .op => p.op == q.op
  | .a => p.a == q.a
  | .b => p.b == q.b
  | .cin => p.cin == q.cin
  | .n => p.n == q.n

end Sys2Proof.Machine
end

