-- ==== Sys2Proof/Machine/Flags.lean ====
section
/-! DEFINITION. The status outputs (10_state.md section 5): the encoding of the compare result (R40) and its reading as an integer, and
the zero flag. The carry-out is `add64c`'s (00_scope.md R14). No operation reads a flag (R43). -/

namespace Sys2Proof.Machine

/-- `bv_2(c)`: the compare result -1, 0 or +1 as two's complement (R40). -/
def cmpCode (c : Int) : CmpCode := BitVec.ofInt 2 c

/-- The host's reading of `cmp`: `val(cmp[0:0]) - 2 * val(cmp[1:1])` (R40). The pattern `0b10` is never driven, and meeting it is a
fault (U8). Log entry 10. -/
def readCmp (c : CmpCode) : Except Fault Int :=
  if c = 0b10#2 then .error .cmpPatternNeverDriven
  else .ok ((c.extractLsb' 0 1).toNat - 2 * (c.extractLsb' 1 1).toNat : Int)

/-- `b2v(val(hi(a)) == 0 and val(lo(a)) == 0)` (40_compare.md R82). -/
def zeroFlag (v : Uint128) : Bit := b2v ((hi v).toNat == 0 && (lo v).toNat == 0)

end Sys2Proof.Machine
end

