-- ==== Sys2Proof/Machine/AddSub.lean ====
section
/-! DEFINITION. The adder with carry and subtractor with borrow: ADDC, ADD, INC, SUB, DEC (43_addsub.md). Only ADDC drives `cout`; there
is no borrow output (10_state.md R44). -/

namespace Sys2Proof.Machine

/-- The two chained 64-bit additions: the low half's carry feeds the high half (R111). Answers the sum and the carry-out. -/
def addc128 (x y : Uint128) (c : Bit) : Uint128 × Bit :=
  let low := add64c (lo x) (lo y) c
  let high := add64c (hi x) (hi y) low.2
  (pair high.1 low.1, high.2)

/-- The two 64-bit subtractions with the borrow of the low half, found by `val(l) > val(lo(x))` (R114). -/
def sub128 (x y : Uint128) : Uint128 :=
  let l := sub64 (lo x) (lo y)
  let bw := b2v (decide ((lo x).toNat < l.toNat))
  let h := sub64 (sub64 (hi x) (hi y)) (bw.setWidth 64)
  pair h l

/-- ADDC (R111). -/
def execAddc (s : State) : Host.Outcome State Fault Refusal :=
  evaluate s fun p => { Outputs.zero with r := (addc128 p.a p.b (carryIn p)).1, cout := (addc128 p.a p.b (carryIn p)).2 }

/-- ADD: carry-in 0, carry-out discarded (R112). -/
def execAdd (s : State) : Host.Outcome State Fault Refusal := evaluate s fun p => onlyR (addc128 p.a p.b 0#1).1

/-- INC: ADD with `(0, 1)` in the place of `b` (R113). -/
def execInc (s : State) : Host.Outcome State Fault Refusal := evaluate s fun p => onlyR (addc128 p.a one128 0#1).1

/-- SUB (R114). -/
def execSub (s : State) : Host.Outcome State Fault Refusal := evaluate s fun p => onlyR (sub128 p.a p.b)

/-- DEC: SUB with `(0, 1)` in the place of `b` (R115). -/
def execDec (s : State) : Host.Outcome State Fault Refusal := evaluate s fun p => onlyR (sub128 p.a one128)

end Sys2Proof.Machine
end

