-- ==== Sys2Proof/Machine/BitCount.lean ====
section
/-! DEFINITION. Bit counting and reversal: BLEN, CLZ, CTZ, POPC, BREV, BSWAP (44_bitcount.md). Each reads `a` alone (R125). -/

namespace Sys2Proof.Machine

/-- `bitLength(x)` (R126). -/
def bitLength128 (x : Uint128) : Nat :=
  if (hi x).toNat = 0 then bitlen64 (lo x) else 64 + bitlen64 (hi x)

/-- `leadingZeros(x)` (R127). -/
def leadingZeros128 (x : Uint128) : Nat := 128 - bitLength128 x

/-- `trailingZeros(x)` (R128). -/
def trailingZeros128 (x : Uint128) : Nat :=
  if (lo x).toNat = 0 then 64 + tz64 (hi x) else tz64 (lo x)

/-- `onesCount(x)` (R129). -/
def onesCount128 (x : Uint128) : Nat := pop64 (hi x) + pop64 (lo x)

/-- `reverseBits(x)`: each half reversed, then the halves swapped (R130). -/
def reverseBits128 (x : Uint128) : Uint128 := pair (rev64 (lo x)) (rev64 (hi x))

/-- `reverseBytes(x)`: each half byte-reversed, then the halves swapped (R131). -/
def reverseBytes128 (x : Uint128) : Uint128 := pair (bswap64 (lo x)) (bswap64 (hi x))

/-- BLEN (R126). -/
def execBlen (s : State) : Host.Outcome State Fault Refusal := evaluate s fun p => onlyCnt (bitLength128 p.a)

/-- CLZ (R127). -/
def execClz (s : State) : Host.Outcome State Fault Refusal := evaluate s fun p => onlyCnt (leadingZeros128 p.a)

/-- CTZ (R128). -/
def execCtz (s : State) : Host.Outcome State Fault Refusal := evaluate s fun p => onlyCnt (trailingZeros128 p.a)

/-- POPC (R129). -/
def execPopc (s : State) : Host.Outcome State Fault Refusal := evaluate s fun p => onlyCnt (onesCount128 p.a)

/-- BREV (R130). -/
def execBrev (s : State) : Host.Outcome State Fault Refusal := evaluate s fun p => onlyR (reverseBits128 p.a)

/-- BSWAP (R131). -/
def execBswap (s : State) : Host.Outcome State Fault Refusal := evaluate s fun p => onlyR (reverseBytes128 p.a)

end Sys2Proof.Machine
end

