-- ==== Sys2Proof/Machine/Compare.lean ====
section
/-! DEFINITION. The comparison tree: CMP and ISZ (40_compare.md). -/

namespace Sys2Proof.Machine

/-- The lexicographic comparison of the halves, high first (R81). -/
def compare128 (x y : Uint128) : Int :=
  if (hi x).toNat > (hi y).toNat then 1
  else if (hi x).toNat < (hi y).toNat then -1
  else if (lo x).toNat > (lo y).toNat then 1
  else if (lo x).toNat < (lo y).toNat then -1
  else 0

/-- CMP (R81). -/
def execCmp (s : State) : Host.Outcome State Fault Refusal :=
  evaluate s fun p => { Outputs.zero with cmp := cmpCode (compare128 p.a p.b) }

/-- ISZ (R82). -/
def execIsz (s : State) : Host.Outcome State Fault Refusal :=
  evaluate s fun p => { Outputs.zero with zf := zeroFlag p.a }

end Sys2Proof.Machine
end

