-- ==== Sys2Proof/Machine/Logic.lean ====
section
/-! DEFINITION. The bitwise logic unit: AND, ANDN, OR, XOR, NOT (41_logic.md). Each half of the result comes from the same half of the
operands alone (R90). -/

namespace Sys2Proof.Machine

/-- `and` (R91). -/
def and128 (x y : Uint128) : Uint128 := pair (hi x &&& hi y) (lo x &&& lo y)

/-- `andNot`: x AND (NOT y) (R92). -/
def andn128 (x y : Uint128) : Uint128 := pair (hi x &&& ~~~(hi y)) (lo x &&& ~~~(lo y))

/-- `or` (R93). -/
def or128 (x y : Uint128) : Uint128 := pair (hi x ||| hi y) (lo x ||| lo y)

/-- `xor` (R94). -/
def xor128 (x y : Uint128) : Uint128 := pair (hi x ^^^ hi y) (lo x ^^^ lo y)

/-- `not` (R95). -/
def not128 (x : Uint128) : Uint128 := pair (~~~(hi x)) (~~~(lo x))

/-- AND (R91). -/
def execAnd (s : State) : Host.Outcome State Fault Refusal := evaluate s fun p => onlyR (and128 p.a p.b)

/-- ANDN (R92). -/
def execAndn (s : State) : Host.Outcome State Fault Refusal := evaluate s fun p => onlyR (andn128 p.a p.b)

/-- OR (R93). -/
def execOr (s : State) : Host.Outcome State Fault Refusal := evaluate s fun p => onlyR (or128 p.a p.b)

/-- XOR (R94). -/
def execXor (s : State) : Host.Outcome State Fault Refusal := evaluate s fun p => onlyR (xor128 p.a p.b)

/-- NOT (R95). -/
def execNot (s : State) : Host.Outcome State Fault Refusal := evaluate s fun p => onlyR (not128 p.a)

end Sys2Proof.Machine
end

