-- ==== Sys2Proof/Machine/Shift.lean ====
section
/-! DEFINITION. The barrel shifter: SHL and SHR (42_shift.md), in the three cases of R100. No rotate (R106); the amount is never reduced
modulo a width (R105). -/

namespace Sys2Proof.Machine

/-- `shiftLeft(x, k)` (R101). -/
def shl128 (x : Uint128) (k : Nat) : Uint128 :=
  if 128 ≤ k then 0#128
  else if 64 ≤ k then pair (shl64 (lo x) (k - 64)) 0#64
  else pair (shl64 (hi x) k ||| shr64 (lo x) (64 - k)) (shl64 (lo x) k)

/-- `shiftRight(x, k)`, logical (R102). -/
def shr128 (x : Uint128) (k : Nat) : Uint128 :=
  if 128 ≤ k then 0#128
  else if 64 ≤ k then pair 0#64 (shr64 (hi x) (k - 64))
  else pair (shr64 (hi x) k) (shr64 (lo x) k ||| shl64 (hi x) (64 - k))

/-- SHL (R101). -/
def execShl (s : State) : Host.Outcome State Fault Refusal := evaluate s fun p => onlyR (shl128 p.a (shiftAmount p))

/-- SHR (R102). -/
def execShr (s : State) : Host.Outcome State Fault Refusal := evaluate s fun p => onlyR (shr128 p.a (shiftAmount p))

end Sys2Proof.Machine
end

