-- ==== Sys2Proof/Machine/Dispatch.lean ====
section
/-! DEFINITION. One arm per operation: which meaning it has. -/

namespace Sys2Proof.Machine

def exec (i : Instr) (s : State) : Host.Outcome State Fault Refusal :=
  match i with
  -- comparison tree (40_compare.md)
  | .cmp => Sys2Proof.Machine.execCmp s
  | .isz => Sys2Proof.Machine.execIsz s
  -- bitwise logic unit (41_logic.md)
  | .and => Sys2Proof.Machine.execAnd s
  | .andn => Sys2Proof.Machine.execAndn s
  | .or => Sys2Proof.Machine.execOr s
  | .xor => Sys2Proof.Machine.execXor s
  | .not => Sys2Proof.Machine.execNot s
  -- barrel shifter (42_shift.md)
  | .shl => Sys2Proof.Machine.execShl s
  | .shr => Sys2Proof.Machine.execShr s
  -- adder and subtractor (43_addsub.md)
  | .addc => Sys2Proof.Machine.execAddc s
  | .add => Sys2Proof.Machine.execAdd s
  | .inc => Sys2Proof.Machine.execInc s
  | .sub => Sys2Proof.Machine.execSub s
  | .dec => Sys2Proof.Machine.execDec s
  -- bit counting and reversal (44_bitcount.md)
  | .blen => Sys2Proof.Machine.execBlen s
  | .clz => Sys2Proof.Machine.execClz s
  | .ctz => Sys2Proof.Machine.execCtz s
  | .popc => Sys2Proof.Machine.execPopc s
  | .brev => Sys2Proof.Machine.execBrev s
  | .bswap => Sys2Proof.Machine.execBswap s

end Sys2Proof.Machine
end

