-- ==== Sys2Proof/Machine/HostPorts.lean ====
section
/-! DEFINITION. What the host does to the ports (70_reset_and_hazards.md R157, R160): drive one, release one, sample the outputs. The host
decides what runs next (10_state.md R33); its own control flow is outside the block. -/

namespace Sys2Proof.Machine

/-- The inputs become `p`, driven as `d` says. A change of any input makes the outputs unspecified until they settle again (R160);
driving a port with the level it is already driven with changes nothing (log entry 6). -/
def State.setInputs (s : State) (p : Inputs) (d : Driven) : State :=
  if p = s.inp ∧ d = s.driven then s else { s with inp := p, driven := d }.redraw

/-- The host drives every input port (R157). -/
def State.drive (s : State) (p : Inputs) : State := s.setInputs p Driven.every

/-- One act of the host on the ports. -/
inductive HostAct where
  | driveOp (v : OpCode)
  | driveA (v : Uint128)
  | driveB (v : Uint128)
  | driveCin (v : Bit)
  | driveN (v : ShAmt)
  /-- Leave a port floating (U6). -/
  | release (p : InPort)
  /-- Read the output ports. -/
  | sample
  deriving DecidableEq, Repr

/-- The driven ports with one released. -/
def Driven.without (d : Driven) : InPort → Driven
  | .op => { d with op := false }
  | .a => { d with a := false }
  | .b => { d with b := false }
  | .cin => { d with cin := false }
  | .n => { d with n := false }

/-- Sampling settled outputs has no side effect and can be repeated (R58); outputs sampled before they settle are unspecified
(R160), and unspecified anew at each sampling (log entry 7). -/
def State.sample (s : State) : State := if s.settled then s else s.redraw

/-- What the host reads when it samples: the levels of the output ports. -/
def State.sampled (s : State) : Outputs := s.sample.out

/-- The ports after an act of the host. -/
def State.act (s : State) : HostAct → State
  | .driveOp v => s.setInputs { s.inp with op := v } { s.driven with op := true }
  | .driveA v => s.setInputs { s.inp with a := v } { s.driven with a := true }
  | .driveB v => s.setInputs { s.inp with b := v } { s.driven with b := true }
  | .driveCin v => s.setInputs { s.inp with cin := v } { s.driven with cin := true }
  | .driveN v => s.setInputs { s.inp with n := v } { s.driven with n := true }
  | .release p => s.setInputs s.inp (s.driven.without p)
  | .sample => s.sample

end Sys2Proof.Machine
end

