-- ==== Sys2Proof/Machine/Step.lean ====
section
/-! DEFINITION. One step of the block: the inputs are held for `T_PD` and `CORE(op, a, b, cin, n)` is evaluated once (10_state.md R31,
70_reset_and_hazards.md R158). -/

namespace Sys2Proof.Machine

/-- The select on `op` is decoded and its operation evaluated; a reserved select is the one abnormal condition (60_exceptions.md
R142). Log entries 1, 4 and 5. -/
def step (s : State) : Host.Outcome State Fault Refusal :=
  match decode s.inp.op with
  | .operation i => exec i s
  | .reserved => takeIllegalOp s

/-- The host drives the select `w` on `op`, and every other port with the level the state holds there, so that the next step
evaluates that operation. The block fetches nothing (10_state.md R33): this drive is how an operation comes to run. Log entry 8. -/
def State.withFetchWord (s : State) (_nbits w : Nat) : State := s.drive { s.inp with op := BitVec.ofNat 5 w }

end Sys2Proof.Machine
end

