-- ==== Sys2Proof/Machine/Bank.lean ====
section
/-! DEFINITION. Several copies of the block (20_memory.md R62, 60_exceptions.md R152): any number, sharing no state. Their
unspecified outputs come from one sequence of free draws, each copy by its own counter: the model's choice (log entry 13). -/

namespace Sys2Proof.Machine

/-- Copy `k` of the bank evaluates once; the others are not touched. A number that no copy has does nothing. Log entry 11
(DESIGN CHOICE); for what two copies show while unsettled, log entry 13. -/
def bankStep (bank : List State) (k : Nat) : Host.Outcome (List State) Fault Refusal :=
  match bank[k]? with
  | none => .next bank
  | some s =>
    match step s with
    | .next t => .next (bank.set k t)
    | .fault f => .fault f
    | .refused r => .refused r

/-- The host acts on the ports of copy `k`. -/
def bankAct (bank : List State) (k : Nat) (h : HostAct) : List State := bank.modify k fun s => s.act h

end Sys2Proof.Machine
end

