-- ==== Sys2Proof/Safety.lean ====
section
/-! DEFINITION. What claims are stated in: the value forms of the spec's rules, the invariant of the ports, a run of host acts and
evaluations, and what a safe run is. The value forms are written apart from the model's halfword pseudocode, over the whole
128-bit value. -/

namespace Sys2Proof.Machine

/-- `c` is the bit length of `x`: 0 for zero, else `floor(log2(val(x))) + 1` (44_bitcount.md R133). -/
def IsBitLength (x : Uint128) (c : Nat) : Prop := c = if x.toNat = 0 then 0 else Nat.log2 x.toNat + 1

/-- `c` is the number of trailing zeros of `x`: 128 for zero, else the least index of a set bit (R133). -/
def IsTrailingZeros (x : Uint128) (c : Nat) : Prop :=
  (x = 0#128 ∧ c = 128) ∨ (x.getLsbD c = true ∧ ∀ i, i < c → x.getLsbD i = false)

/-- The number of `i` in `[0, 127]` with `x[i] = 1` (R133). -/
def setBits (x : Uint128) : Nat := ((Finset.range 128).filter fun i => x.getLsbD i = true).card

/-- `y[i] = x[127 - i]` for every `i` in `[0, 127]` (R132). -/
def IsBitReversal (x y : Uint128) : Prop := ∀ i, i < 128 → y.getLsbD i = x.getLsbD (127 - i)

/-- Byte `k` of `y` is byte `15 - k` of `x` for every `k` in `[0, 15]` (R132, bytes by R22). -/
def IsByteReversal (x y : Uint128) : Prop :=
  ∀ k, k < 16 → y.extractLsb' (8 * k) 8 = x.extractLsb' (8 * (15 - k)) 8

/-- The outputs are all zero but for `r`. -/
def Outputs.drivesR (o : Outputs) : Prop := o.cout = 0#1 ∧ o.cmp = 0#2 ∧ o.cnt = 0#8 ∧ o.zf = 0#1 ∧ o.ill = 0#1

/-- The outputs are all zero but for `cnt`. -/
def Outputs.drivesCnt (o : Outputs) : Prop := o.r = 0#128 ∧ o.cout = 0#1 ∧ o.cmp = 0#2 ∧ o.zf = 0#1 ∧ o.ill = 0#1

/-- One output at its default, all zeros (R39). -/
def Outputs.zeroAt (o : Outputs) : OutPort → Prop
  | .r => o.r = 0#128
  | .cout => o.cout = 0#1
  | .cmp => o.cmp = 0#2
  | .cnt => o.cnt = 0#8
  | .zf => o.zf = 0#1
  | .ill => o.ill = 0#1

/-- The outputs `o` are those the spec's value forms give for the input levels `p`: R142 for a reserved select, else R83, R82, R91 to
R95, R103, R116, R117, R127, R132, R133, every output that is not driven at zero (R39). -/
def MeetsRules (p : Inputs) (o : Outputs) : Prop :=
  match decode p.op with
  | .reserved => o = { Outputs.zero with ill := 1#1 }
  | .operation .cmp => o = { Outputs.zero with cmp :=
      if p.b.toNat < p.a.toNat then 0b01#2 else if p.a.toNat < p.b.toNat then 0b11#2 else 0b00#2 }
  | .operation .isz => o = { Outputs.zero with zf := if p.a.toNat = 0 then 1#1 else 0#1 }
  | .operation .and => o = { Outputs.zero with r := p.a &&& p.b }
  | .operation .andn => o = { Outputs.zero with r := p.a &&& ~~~p.b }
  | .operation .or => o = { Outputs.zero with r := p.a ||| p.b }
  | .operation .xor => o = { Outputs.zero with r := p.a ^^^ p.b }
  | .operation .not => o = { Outputs.zero with r := ~~~p.a }
  | .operation .shl => o.drivesR ∧ o.r.toNat = p.a.toNat * 2 ^ p.n.toNat % 2 ^ 128
  | .operation .shr => o.drivesR ∧ o.r.toNat = p.a.toNat / 2 ^ p.n.toNat
  | .operation .addc => o = { Outputs.zero with r := o.r, cout := o.cout } ∧
      o.r.toNat + 2 ^ 128 * o.cout.toNat = p.a.toNat + p.b.toNat + p.cin.toNat
  | .operation .add => o.drivesR ∧ o.r.toNat = (p.a.toNat + p.b.toNat) % 2 ^ 128
  | .operation .inc => o.drivesR ∧ o.r.toNat = (p.a.toNat + 1) % 2 ^ 128
  | .operation .sub => o.drivesR ∧ (o.r.toNat : Int) = ((p.a.toNat : Int) - p.b.toNat) % 2 ^ 128
  | .operation .dec => o.drivesR ∧ (o.r.toNat : Int) = ((p.a.toNat : Int) - 1) % 2 ^ 128
  | .operation .blen => o.drivesCnt ∧ IsBitLength p.a o.cnt.toNat
  | .operation .clz => o.drivesCnt ∧ ∃ l, IsBitLength p.a l ∧ o.cnt.toNat + l = 128
  | .operation .ctz => o.drivesCnt ∧ IsTrailingZeros p.a o.cnt.toNat
  | .operation .popc => o.drivesCnt ∧ o.cnt.toNat = setBits p.a
  | .operation .brev => o.drivesR ∧ IsBitReversal p.a o.r
  | .operation .bswap => o.drivesR ∧ IsByteReversal p.a o.r

/-- The invariant of the ports: outputs are settled only with every input driven, and then show what the rules give for the inputs
held (R31, R58, R156, R160). -/
def State.Inv (s : State) : Prop := s.settled = true → s.driven.all = true ∧ MeetsRules s.inp s.out

/-- What happens to the ports: an act of the host, or `T_PD` passing with the inputs held. -/
inductive Event where
  | host (h : HostAct)
  | wait
  deriving DecidableEq, Repr

/-- The ports after a list of events. -/
def runEvents : State → List Event → Host.Outcome State Fault Refusal
  | s, [] => .next s
  | s, .host h :: es => runEvents (s.act h) es
  | s, .wait :: es =>
    match step s with
    | .next t => runEvents t es
    | .fault f => .fault f
    | .refused r => .refused r

/-- A safe run: the host samples settled outputs only (R160, its one obligation). -/
def safeRun : State → List Event → Bool
  | _, [] => true
  | s, .host h :: es => (h != .sample || s.settled) && safeRun (s.act h) es
  | s, .wait :: es =>
    match step s with
    | .next t => safeRun t es
    | _ => false

/-- What the host reads at each sampling of a run, with the input levels it holds then. -/
def samples : State → List Event → List (Inputs × Outputs)
  | _, [] => []
  | s, .host h :: es => (if h = .sample then [(s.inp, s.sampled)] else []) ++ samples (s.act h) es
  | s, .wait :: es =>
    match step s with
    | .next t => samples t es
    | _ => []

/-- What the host reads when, from power-up, it drives the select of `i` and the four operands, waits and samples (R157). -/
def outputsOf (i : Instr) (a b : Uint128) (cin : Bit) (n : ShAmt) : Outputs :=
  match step (State.reset.drive { op := encode i, a := a, b := b, cin := cin, n := n }) with
  | .next t => t.sampled
  | _ => Outputs.zero

/-- The host's addition of values of several 128-bit words, least significant first: one ADDC a word, each `cout` fed into the next
`cin` (43_addsub.md R120). Answers the sum's words and the last carry. -/
def addChain : List (Uint128 × Uint128) → Bit → List Uint128 × Bit
  | [], c => ([], c)
  | (x, y) :: ws, c =>
    let o := outputsOf .addc x y c 0#64
    (o.r :: (addChain ws o.cout).1, (addChain ws o.cout).2)

/-- The value of a list of 128-bit words, least significant first. -/
def wordsValue : List Uint128 → Nat
  | [] => 0
  | w :: ws => w.toNat + 2 ^ 128 * wordsValue ws

end Sys2Proof.Machine
end

