-- ==== Sys2Proof/Certificates/Slice0/Obligations.lean ====
section
/-! DEFINITION. The statements for the provers. "Driven" below means that the host drives every input to a defined level, the one
condition under which an operation executes (70_reset_and_hazards.md R156, R157). Results are given over the whole 128-bit
value, apart from the halfword pseudocode the meanings follow. A next state written `{ s with out := …, settled := true }` is
the frame as well: the inputs, what drives them and the draw counter stay, and every output not named is zero (R39). -/

open Sys2Proof Sys2Proof.Machine

/-! The select -/

/-- 30_encoding.md R65: the 20 assigned codes and the 12 reserved ones. -/
def Obligations.OpcodeMapSelectsTheOperations : Prop :=
  decode 0b00000#5 = .operation .cmp ∧ decode 0b00001#5 = .operation .isz ∧ decode 0b00010#5 = .operation .and ∧
  decode 0b00011#5 = .operation .andn ∧ decode 0b00100#5 = .operation .or ∧ decode 0b00101#5 = .operation .xor ∧
  decode 0b00110#5 = .operation .not ∧ decode 0b01000#5 = .operation .shl ∧ decode 0b01001#5 = .operation .shr ∧
  decode 0b10000#5 = .operation .addc ∧ decode 0b10001#5 = .operation .add ∧ decode 0b10010#5 = .operation .inc ∧
  decode 0b10011#5 = .operation .sub ∧ decode 0b10100#5 = .operation .dec ∧ decode 0b11000#5 = .operation .blen ∧
  decode 0b11001#5 = .operation .clz ∧ decode 0b11010#5 = .operation .ctz ∧ decode 0b11011#5 = .operation .popc ∧
  decode 0b11100#5 = .operation .brev ∧ decode 0b11101#5 = .operation .bswap ∧
  ∀ op ∈ [0b00111#5, 0b01010#5, 0b01011#5, 0b01100#5, 0b01101#5, 0b01110#5, 0b01111#5, 0b10101#5, 0b10110#5, 0b10111#5,
    0b11110#5, 0b11111#5], decode op = .reserved

/-- Decoding and encoding agree: the select of each operation decodes to it, and no other code does. -/
def Obligations.SelectDecodesToItsOperationAlone : Prop :=
  (∀ i, decode (encode i) = .operation i) ∧ ∀ op i, decode op = .operation i → op = encode i

/-- Every well-formed assembler line, put on the ports over any levels held there, reads back as itself with each operand in
canonical form (a 128-bit operand as its pair of halves), and the operand ports it does not name keep their levels. -/
def Obligations.LinePutOnThePortsReadsBack : Prop :=
  ∀ (l : Line) (held : Inputs), l.wellFormed = true →
    readLine (l.ports held) = some l.canonical ∧
    ∀ p : InPort, p ≠ .op → p ∉ l.instr.reads → samePort (l.ports held) held p = true

/-- A line whose carry-in is a count other than 0 or 1 is refused: the source's undefined input cannot be presented (U1). -/
def Obligations.CarryInOtherThanZeroOrOneIsRefused : Prop :=
  ∀ (outs : List OutPort) (x y : Operand) (k : Nat), 2 ≤ k →
    Line.wellFormed { outputs := outs, instr := .addc, operands := [x, y, .count k] } = false

/-- A step runs the decoded operation; the block moves nothing else. -/
def Obligations.StepRunsTheDecodedOperation : Prop :=
  ∀ (s : State) (i : Instr), decode s.inp.op = .operation i → step s = exec i s

/-- The model's own (log entry 8): a select the host drives with `withFetchWord` is what the next step evaluates, to the end. -/
def Obligations.DrivenSelectIsTheNextOperation : Prop :=
  ∀ (s : State) (i : Instr) (nbits w : Nat), decodeTableWord nbits w = some i →
    (s.withFetchWord nbits w).inp = { s.inp with op := encode i } ∧
    step (s.withFetchWord nbits w) = exec i (s.withFetchWord nbits w) ∧
    ∃ t, step (s.withFetchWord nbits w) = .next t ∧ t.settled = true

/-! Results, operation by operation -/

/-- 40_compare.md R83: CMP gives the sign of `val(a) - val(b)`. -/
def Obligations.CmpGivesTheSignOfTheDifference : Prop :=
  ∀ s : State, s.driven.all = true →
    let t : State := { s with
      out := { Outputs.zero with cmp :=
        if s.inp.a.toNat > s.inp.b.toNat then 0b01#2 else if s.inp.a.toNat < s.inp.b.toNat then 0b11#2 else 0b00#2 }
      settled := true }
    exec .cmp s = .next t ∧ (s.inp.op = 0b00000#5 → step s = .next t) ∧
    readCmp t.out.cmp = .ok (Int.sign ((s.inp.a.toNat : Int) - s.inp.b.toNat))

/-- 40_compare.md R82: ISZ gives 1 exactly when both halves are zero. -/
def Obligations.IszIsOneExactlyForZero : Prop :=
  ∀ s : State, s.driven.all = true →
    let t : State := { s with
      out := { Outputs.zero with zf :=
        if s.inp.a.toNat / 2 ^ 64 = 0 ∧ s.inp.a.toNat % 2 ^ 64 = 0 then 1#1 else 0#1 }
      settled := true }
    exec .isz s = .next t ∧ (s.inp.op = 0b00001#5 → step s = .next t) ∧ (t.out.zf = 1#1 ↔ s.inp.a = 0#128)

/-- 41_logic.md R90 to R95: each operation of the logic unit is the operator on the whole vectors. -/
def Obligations.LogicUnitActsOnTheWholeVectors : Prop :=
  ∀ s : State, s.driven.all = true →
    let t : Uint128 → State := fun v => { s with out := { Outputs.zero with r := v }, settled := true }
    (exec .and s = .next (t (s.inp.a &&& s.inp.b)) ∧
      (s.inp.op = 0b00010#5 → step s = .next (t (s.inp.a &&& s.inp.b)))) ∧
    (exec .andn s = .next (t (s.inp.a &&& ~~~s.inp.b)) ∧
      (s.inp.op = 0b00011#5 → step s = .next (t (s.inp.a &&& ~~~s.inp.b)))) ∧
    (exec .or s = .next (t (s.inp.a ||| s.inp.b)) ∧
      (s.inp.op = 0b00100#5 → step s = .next (t (s.inp.a ||| s.inp.b)))) ∧
    (exec .xor s = .next (t (s.inp.a ^^^ s.inp.b)) ∧
      (s.inp.op = 0b00101#5 → step s = .next (t (s.inp.a ^^^ s.inp.b)))) ∧
    (exec .not s = .next (t (~~~s.inp.a)) ∧
      (s.inp.op = 0b00110#5 → step s = .next (t (~~~s.inp.a))))

/-- 42_shift.md R103: SHL multiplies by `2^k` modulo `2^128`, SHR divides by `2^k`, for every `k = val(n)`. -/
def Obligations.ShiftsMultiplyAndDivideByPowersOfTwo : Prop :=
  ∀ s : State, s.driven.all = true →
    (∃ v : Uint128, v.toNat = s.inp.a.toNat * 2 ^ s.inp.n.toNat % 2 ^ 128 ∧
      exec .shl s = .next { s with out := { Outputs.zero with r := v }, settled := true } ∧
      (s.inp.op = 0b01000#5 → step s = .next { s with out := { Outputs.zero with r := v }, settled := true })) ∧
    (∃ v : Uint128, v.toNat = s.inp.a.toNat / 2 ^ s.inp.n.toNat ∧
      exec .shr s = .next { s with out := { Outputs.zero with r := v }, settled := true } ∧
      (s.inp.op = 0b01001#5 → step s = .next { s with out := { Outputs.zero with r := v }, settled := true }))

/-- 43_addsub.md R116: ADDC gives the exact sum in `r` and `cout`; ADD and INC wrap modulo `2^128` and give no carry. -/
def Obligations.AddcAddIncGiveTheSum : Prop :=
  ∀ s : State, s.driven.all = true →
    (∃ (v : Uint128) (c : Bit), v.toNat + 2 ^ 128 * c.toNat = s.inp.a.toNat + s.inp.b.toNat + s.inp.cin.toNat ∧
      v.toNat = (s.inp.a.toNat + s.inp.b.toNat + s.inp.cin.toNat) % 2 ^ 128 ∧
      (c = 1#1 ↔ 2 ^ 128 ≤ s.inp.a.toNat + s.inp.b.toNat + s.inp.cin.toNat) ∧
      exec .addc s = .next { s with out := { Outputs.zero with r := v, cout := c }, settled := true } ∧
      (s.inp.op = 0b10000#5 → step s = .next { s with out := { Outputs.zero with r := v, cout := c }, settled := true })) ∧
    (∃ v : Uint128, v.toNat = (s.inp.a.toNat + s.inp.b.toNat) % 2 ^ 128 ∧
      exec .add s = .next { s with out := { Outputs.zero with r := v }, settled := true } ∧
      (s.inp.op = 0b10001#5 → step s = .next { s with out := { Outputs.zero with r := v }, settled := true })) ∧
    (∃ v : Uint128, v.toNat = (s.inp.a.toNat + 1) % 2 ^ 128 ∧
      exec .inc s = .next { s with out := { Outputs.zero with r := v }, settled := true } ∧
      (s.inp.op = 0b10010#5 → step s = .next { s with out := { Outputs.zero with r := v }, settled := true }))

/-- 43_addsub.md R117: SUB and DEC give the difference modulo `2^128`, with no borrow output; the source's borrow test is exact. -/
def Obligations.SubDecGiveTheDifference : Prop :=
  (∀ s : State, s.driven.all = true →
    (∃ v : Uint128, (v.toNat : Int) = ((s.inp.a.toNat : Int) - s.inp.b.toNat) % 2 ^ 128 ∧
      exec .sub s = .next { s with out := { Outputs.zero with r := v }, settled := true } ∧
      (s.inp.op = 0b10011#5 → step s = .next { s with out := { Outputs.zero with r := v }, settled := true })) ∧
    (∃ v : Uint128, (v.toNat : Int) = ((s.inp.a.toNat : Int) - 1) % 2 ^ 128 ∧
      exec .dec s = .next { s with out := { Outputs.zero with r := v }, settled := true } ∧
      (s.inp.op = 0b10100#5 → step s = .next { s with out := { Outputs.zero with r := v }, settled := true }))) ∧
  ∀ a b : Uint128, (lo a).toNat < (sub64 (lo a) (lo b)).toNat ↔ (lo a).toNat < (lo b).toNat

/-- 44_bitcount.md R133: BLEN is 0 for zero, else `floor(log2(val(a))) + 1`, one above the
greatest index of a set bit; CTZ is 128 for zero, else the least index of a set bit;
POPC is the number of set bits. -/
def Obligations.BlenCtzPopcCountTheBits : Prop :=
  ∀ s : State, s.driven.all = true →
    (∃ c : Count, IsBitLength s.inp.a c.toNat ∧
      (s.inp.a ≠ 0#128 → s.inp.a.getLsbD (c.toNat - 1) = true ∧ ∀ i, c.toNat ≤ i → s.inp.a.getLsbD i = false) ∧
      exec .blen s = .next { s with out := { Outputs.zero with cnt := c }, settled := true } ∧
      (s.inp.op = 0b11000#5 → step s = .next { s with out := { Outputs.zero with cnt := c }, settled := true })) ∧
    (∃ c : Count, IsTrailingZeros s.inp.a c.toNat ∧
      exec .ctz s = .next { s with out := { Outputs.zero with cnt := c }, settled := true } ∧
      (s.inp.op = 0b11010#5 → step s = .next { s with out := { Outputs.zero with cnt := c }, settled := true })) ∧
    (∃ c : Count, c.toNat = setBits s.inp.a ∧
      exec .popc s = .next { s with out := { Outputs.zero with cnt := c }, settled := true } ∧
      (s.inp.op = 0b11011#5 → step s = .next { s with out := { Outputs.zero with cnt := c }, settled := true }))

/-- 44_bitcount.md R127: CLZ is 128 less the bit length, 128 for zero. -/
def Obligations.ClzIs128LessTheBitLength : Prop :=
  ∀ s : State, s.driven.all = true →
    ∃ (c : Count) (l : Nat), IsBitLength s.inp.a l ∧ c.toNat + l = 128 ∧ (s.inp.a = 0#128 → c.toNat = 128) ∧
      exec .clz s = .next { s with out := { Outputs.zero with cnt := c }, settled := true } ∧
      (s.inp.op = 0b11001#5 → step s = .next { s with out := { Outputs.zero with cnt := c }, settled := true })

/-- 44_bitcount.md R132: BREV gives `r[i] = a[127 - i]`, BSWAP gives byte `k` of `r` equal to byte `15 - k` of `a`. -/
def Obligations.BrevBswapReverseByIndex : Prop :=
  ∀ s : State, s.driven.all = true →
    (∃ v : Uint128, IsBitReversal s.inp.a v ∧
      exec .brev s = .next { s with out := { Outputs.zero with r := v }, settled := true } ∧
      (s.inp.op = 0b11100#5 → step s = .next { s with out := { Outputs.zero with r := v }, settled := true })) ∧
    (∃ v : Uint128, IsByteReversal s.inp.a v ∧
      exec .bswap s = .next { s with out := { Outputs.zero with r := v }, settled := true } ∧
      (s.inp.op = 0b11101#5 → step s = .next { s with out := { Outputs.zero with r := v }, settled := true }))

/-! The abnormal condition, power-up and floating inputs -/

/-- 60_exceptions.md R142: each of the 12 reserved codes drives `ill = 1` and every other output to zero, whatever the operands;
`ill` is 0 for every assigned code. -/
def Obligations.ReservedCodesDriveIllAlone : Prop :=
  (∀ s : State, s.driven.all = true →
    s.inp.op ∈ [0b00111#5, 0b01010#5, 0b01011#5, 0b01100#5, 0b01101#5, 0b01110#5, 0b01111#5, 0b10101#5, 0b10110#5,
      0b10111#5, 0b11110#5, 0b11111#5] →
    step s = .next { s with
      out := { r := 0#128, cout := 0#1, cmp := 0b00#2, cnt := 0#8, zf := 0#1, ill := 1#1 }, settled := true }) ∧
  ∀ (s t : State) (i : Instr), s.driven.all = true → s.inp.op = encode i → step s = .next t → t.out.ill = 0#1

/-- 60_exceptions.md R147: a reserved code followed by an assigned one gives the assigned operation's outputs with `ill = 0`. -/
def Obligations.AssignedAfterReservedIsUnaffected : Prop :=
  ∀ (s t : State) (p : Inputs) (i : Instr), decode s.inp.op = .reserved → step s = .next t → p.op = encode i →
    ∃ u, step (t.drive p) = .next u ∧ u.settled = true ∧ u.out = outputsOf i p.a p.b p.cin p.n ∧ u.out.ill = 0#1

/-- At power-up nothing is driven and nothing has settled, so the outputs are unspecified (R45, R156); the input levels and the draw
counter there are the model's own (log entries 2 and 3) and are not stated. -/
def Obligations.PowerUpHasSettledNothing : Prop :=
  State.reset.settled = false ∧ State.reset.driven = Driven.none ∧ step State.reset = .next State.reset.redraw

/-- With an input that is not driven, an evaluation leaves the outputs unspecified: a fresh free draw, the model's form of "any
value" (R156, U6; log entries 3 and 12). -/
def Obligations.FloatingInputLeavesOutputsUnspecified : Prop :=
  ∀ s : State, s.driven.all = false →
    let t : State := { s with out := Outputs.drawn s.draws, settled := false, draws := s.draws + 1 }
    (∀ i, exec i s = .next t) ∧ step s = .next t

/-- A change of any input, of its level or of whether it is driven, makes the outputs unspecified until they settle again (R160; the
free draw is the model's form, log entry 3). -/
def Obligations.ChangedInputUnsettlesTheOutputs : Prop :=
  ∀ (s : State) (h : HostAct), ((s.act h).inp ≠ s.inp ∨ (s.act h).driven ≠ s.driven) →
    (s.act h).settled = false ∧ (s.act h).out = Outputs.drawn s.draws

/-! The whole machine -/

/-- 60_exceptions.md R140: every operation, and every step, answers a next state from every state. -/
def Obligations.EveryOperationIsTotal : Prop :=
  ∀ s : State, (∀ i, ∃ t, exec i s = .next t) ∧ ∃ t, step s = .next t

/-- 10_state.md R35: no operation and no step writes an input port. -/
def Obligations.NoOperationWritesAnInput : Prop :=
  ∀ s t : State, ((∃ i, exec i s = .next t) ∨ step s = .next t) → t.inp = s.inp ∧ t.driven = s.driven

/-- 10_state.md R31: two operations with equal inputs have equal outputs, whatever the ports showed before. -/
def Obligations.OutputsAreAFunctionOfTheInputs : Prop :=
  ∀ s u : State, s.driven.all = true → u.driven.all = true → u.inp = s.inp →
    ∃ t v, step s = .next t ∧ step u = .next v ∧ t.out = v.out ∧ t.settled = true ∧ v.settled = true

/-- 10_state.md R42: an input an operation does not read has no effect on any output of that operation. -/
def Obligations.UnreadInputsHaveNoEffect : Prop :=
  ∀ (i : Instr) (s u : State), s.driven.all = true → u.driven.all = true →
    (∀ p ∈ i.reads, samePort s.inp u.inp p = true) →
    ∃ t v, exec i s = .next t ∧ exec i u = .next v ∧ t.out = v.out

/-- 10_state.md R39: which operation drives which output, and an output that an operation does not drive is all zeros. -/
def Obligations.OutputsNotDrivenAreZero : Prop :=
  (∀ i : Instr,
    (OutPort.r ∈ i.drives ↔ i ∈ [Instr.and, .andn, .or, .xor, .not, .shl, .shr, .addc, .add, .inc, .sub, .dec, .brev, .bswap]) ∧
    (OutPort.cout ∈ i.drives ↔ i = .addc) ∧ (OutPort.cmp ∈ i.drives ↔ i = .cmp) ∧
    (OutPort.cnt ∈ i.drives ↔ i ∈ [Instr.blen, .clz, .ctz, .popc]) ∧
    (OutPort.zf ∈ i.drives ↔ i = .isz) ∧ OutPort.ill ∉ i.drives) ∧
  ∀ (i : Instr) (s : State), s.driven.all = true →
    ∃ t, exec i s = .next t ∧ ∀ p : OutPort, p ∉ i.drives → t.out.zeroAt p

/-- 10_state.md R43: each status output is set only by its own operation. -/
def Obligations.StatusOutputsComeFromTheirOwnOperation : Prop :=
  ∀ s : State, s.driven.all = true → ∃ t, step s = .next t ∧
    (t.out.cout = 1#1 ↔
      s.inp.op = 0b10000#5 ∧ 2 ^ 128 ≤ s.inp.a.toNat + s.inp.b.toNat + s.inp.cin.toNat) ∧
    (t.out.zf = 1#1 ↔ s.inp.op = 0b00001#5 ∧ s.inp.a = 0#128) ∧
    (t.out.cmp ≠ 0b00#2 ↔ s.inp.op = 0b00000#5 ∧ s.inp.a ≠ s.inp.b) ∧
    (t.out.ill = 1#1 ↔ decode s.inp.op = .reserved)

/-- 10_state.md R40: `cmp` shows `0b11` for less, `0b00` for equal, `0b01` for greater, and no step drives `0b10`. -/
def Obligations.CmpIsTwosComplementAndNeverTwo : Prop :=
  ∀ s : State, s.driven.all = true → ∃ t, step s = .next t ∧ t.out.cmp ≠ 0b10#2 ∧
    (s.inp.op = encode .cmp →
      (s.inp.a < s.inp.b → t.out.cmp = 0b11#2 ∧ readCmp t.out.cmp = .ok (-1)) ∧
      (s.inp.a = s.inp.b → t.out.cmp = 0b00#2 ∧ readCmp t.out.cmp = .ok 0) ∧
      (s.inp.b < s.inp.a → t.out.cmp = 0b01#2 ∧ readCmp t.out.cmp = .ok 1))

/-- 10_state.md R41: every count lies in `[0, 128]`, and `cnt[7] = 1` only for the value 128. -/
def Obligations.CountsAreAtMost128 : Prop :=
  ∀ s : State, s.driven.all = true → ∃ t, step s = .next t ∧ t.out.cnt.toNat ≤ 128 ∧
    (t.out.cnt.getLsbD 7 = true → t.out.cnt.toNat = 128)

/-- 20_memory.md R58: settled outputs correspond to the inputs held; evaluating again changes nothing, and sampling has no side effect
and reads the same again. -/
def Obligations.SettledOutputsStayWhileInputsAreHeld : Prop :=
  ∀ s : State, s.driven.all = true → ∃ t, step s = .next t ∧ t.inp = s.inp ∧ t.settled = true ∧
    MeetsRules s.inp t.out ∧ step t = .next t ∧ t.sample = t ∧ t.sampled = t.out ∧ t.sample.sampled = t.out

/-- From any state, the outputs of an operation are those the host reads when it drives the same operands after power-up, waits and
samples: `outputsOf`, in which the laws below are stated. -/
def Obligations.OutputsOfIsWhatEveryStateShows : Prop :=
  ∀ (s : State) (i : Instr), s.driven.all = true →
    ∃ t, exec i s = .next t ∧ t.out = outputsOf i s.inp.a s.inp.b s.inp.cin s.inp.n

/-- 20_memory.md R62: an operation on one copy of the block, or an act of the host on its ports, never changes another copy.
The form is the model's choice (log entry 11, DESIGN CHOICE): the bank is a list, one event acts on one copy, the number of copies
stays, and an evaluation of a number no copy has answers the bank as it was. Nothing is said of two copies' unspecified outputs
agreeing (log entry 13). -/
def Obligations.CopiesOfTheBlockDoNotInteract : Prop :=
  ∀ (bank : List State) (k : Nat),
    (∃ bank', bankStep bank k = .next bank' ∧ bank'.length = bank.length ∧ (∀ j, j ≠ k → bank'[j]? = bank[j]?) ∧
      ∀ s, bank[k]? = some s → ∃ t, step s = .next t ∧ bank'[k]? = some t) ∧
    ∀ h, (∀ j, j ≠ k → (bankAct bank k h)[j]? = bank[j]?) ∧ (bankAct bank k h)[k]? = (bank[k]?).map fun s => s.act h

/-! Laws of the units -/

/-- 40_compare.md R84: the order laws of `compare`. -/
def Obligations.CompareIsAStrictTotalOrder : Prop :=
  ∀ (x y z : Uint128) (c : Bit) (n : ShAmt),
    let cmp : Uint128 → Uint128 → CmpCode := fun v w => (outputsOf .cmp v w c n).cmp
    cmp x x = 0b00#2 ∧ (cmp x y = 0b11#2 ↔ cmp y x = 0b01#2) ∧ (cmp x y = 0b00#2 ↔ x = y) ∧
    (cmp x y = 0b11#2 → cmp y z = 0b11#2 → cmp x z = 0b11#2) ∧
    (cmp x y = 0b11#2 ∨ x = y ∨ cmp y x = 0b11#2)

/-- 40_compare.md R85: ISZ agrees with CMP against zero. -/
def Obligations.IszAgreesWithCompareToZero : Prop :=
  ∀ (x b : Uint128) (c c' : Bit) (n n' : ShAmt),
    (outputsOf .isz x b c n).zf = 1#1 ↔ (outputsOf .cmp x 0#128 c' n').cmp = 0b00#2

/-- 41_logic.md R96: the laws of the logic unit, whatever the inputs it does not read carry. -/
def Obligations.LogicLaws : Prop :=
  ∀ (x y z b : Uint128) (c : Bit) (n : ShAmt),
    let and' : Uint128 → Uint128 → Uint128 := fun v w => (outputsOf .and v w c n).r
    let or' : Uint128 → Uint128 → Uint128 := fun v w => (outputsOf .or v w c n).r
    let xor' : Uint128 → Uint128 → Uint128 := fun v w => (outputsOf .xor v w c n).r
    let andn' : Uint128 → Uint128 → Uint128 := fun v w => (outputsOf .andn v w c n).r
    let not' : Uint128 → Uint128 := fun v => (outputsOf .not v b c n).r
    (and' x y = and' y x ∧ or' x y = or' y x ∧ xor' x y = xor' y x) ∧
    (and' (and' x y) z = and' x (and' y z) ∧ or' (or' x y) z = or' x (or' y z) ∧ xor' (xor' x y) z = xor' x (xor' y z)) ∧
    not' (not' x) = x ∧ andn' x y = and' x (not' y) ∧ xor' x x = 0#128 ∧ (not' x).toNat = 2 ^ 128 - 1 - x.toNat

/-- 42_shift.md R104: shifting right and back clears the low `n` bits and preserves the rest, for every `n` below 128; it gives `x`
back exactly when `x` has at least `n` trailing zeros; a shift by 128 gives zero. -/
def Obligations.ShiftBackClearsTheLowBits : Prop :=
  ∀ (x b b' : Uint128) (c c' : Bit) (n : ShAmt),
    (outputsOf .shl x b c 128#64).r = 0#128 ∧ (outputsOf .shr x b c 128#64).r = 0#128 ∧
    (n.toNat < 128 →
      (outputsOf .shl (outputsOf .shr x b c n).r b' c' n).r = x &&& ~~~(BitVec.ofNat 128 (2 ^ n.toNat - 1)) ∧
      ((outputsOf .shl (outputsOf .shr x b c n).r b' c' n).r = x ↔ n.toNat ≤ (outputsOf .ctz x b c n).cnt.toNat))

/-- 42_shift.md R105: an amount of 128 or more gives zero; it is never reduced modulo a width. -/
def Obligations.LargeShiftAmountsGiveZero : Prop :=
  ∀ (x b : Uint128) (c : Bit) (n : ShAmt), 128 ≤ n.toNat →
    (outputsOf .shl x b c n).r = 0#128 ∧ (outputsOf .shr x b c n).r = 0#128

/-- 70_reset_and_hazards.md R162: a shift by 0 is a true no-op, its carry term is zero, and a shift by 64 moves one half over. -/
def Obligations.ShiftByZeroIsANoOp : Prop :=
  ∀ (x b : Uint128) (c : Bit),
    (outputsOf .shl x b c 0#64).r = x ∧ (outputsOf .shr x b c 0#64).r = x ∧
    shr64 (lo x) (64 - 0) = 0#64 ∧ shl64 (hi x) (64 - 0) = 0#64 ∧
    (outputsOf .shl x b c 64#64).r = pair (lo x) 0#64 ∧ (outputsOf .shr x b c 64#64).r = pair 0#64 (hi x)

/-- 42_shift.md R106: the block has no rotate, and OR of the two shifts is the left rotation by `k` in `[1, 127]`. -/
def Obligations.RotationIsComposedFromShifts : Prop :=
  (∀ op ∈ [0b01010#5, 0b01011#5, 0b01100#5, 0b01101#5, 0b01110#5, 0b01111#5], decode op = .reserved) ∧
  ∀ (x b : Uint128) (c : Bit) (k m n : ShAmt), 1 ≤ k.toNat → k.toNat ≤ 127 → m.toNat = 128 - k.toNat →
    (outputsOf .or (outputsOf .shl x b c k).r (outputsOf .shr x b c m).r c n).r = x.rotateLeft k.toNat

/-- 43_addsub.md R118: ADD is ADDC with carry-in 0, INC is ADD with 1, DEC is SUB with 1. -/
def Obligations.AddIncDecAreSpecialCases : Prop :=
  ∀ (x y b : Uint128) (c c' : Bit) (n n' : ShAmt),
    (outputsOf .add x y c n).r = (outputsOf .addc x y 0#1 n').r ∧
    outputsOf .inc x b c n = outputsOf .add x 1#128 c' n' ∧
    outputsOf .dec x b c n = outputsOf .sub x 1#128 c' n'

/-- 43_addsub.md R119: the laws of addition and subtraction under wraparound. -/
def Obligations.AdditionLaws : Prop :=
  ∀ (x y z b : Uint128) (c : Bit) (n : ShAmt),
    let add' : Uint128 → Uint128 → Uint128 := fun v w => (outputsOf .add v w c n).r
    let sub' : Uint128 → Uint128 → Uint128 := fun v w => (outputsOf .sub v w c n).r
    add' x y = add' y x ∧ add' (add' x y) z = add' x (add' y z) ∧ add' x 0#128 = x ∧ sub' x x = 0#128 ∧
    (outputsOf .dec (outputsOf .inc x b c n).r b c n).r = x ∧ sub' (add' x y) y = x

/-- 43_addsub.md R120: a chain of ADDC, each carry-out fed into the next carry-in, adds values of any number of 128-bit words. -/
def Obligations.AddcChainAddsLongValues : Prop :=
  ∀ (ws : List (Uint128 × Uint128)) (c : Bit),
    (addChain ws c).1.length = ws.length ∧
    wordsValue (addChain ws c).1 + 2 ^ (128 * ws.length) * (addChain ws c).2.toNat =
      wordsValue (ws.map Prod.fst) + wordsValue (ws.map Prod.snd) + c.toNat

/-- 70_reset_and_hazards.md R163: the carry into the high half is the true carry of `lo(a) + lo(b) + cin`, the borrow the true borrow
of `lo(a) - lo(b)`. -/
def Obligations.InterHalfCarryAndBorrowAreExact : Prop :=
  ∀ (a b : Uint128) (c : Bit) (n : ShAmt),
    ((outputsOf .addc a b c n).r.toNat / 2 ^ 64 =
      (a.toNat / 2 ^ 64 + b.toNat / 2 ^ 64 + (if 2 ^ 64 ≤ a.toNat % 2 ^ 64 + b.toNat % 2 ^ 64 + c.toNat then 1 else 0))
        % 2 ^ 64) ∧
    ((outputsOf .sub a b c n).r.toNat / 2 ^ 64 =
      (2 ^ 65 + a.toNat / 2 ^ 64 - b.toNat / 2 ^ 64 - (if a.toNat % 2 ^ 64 < b.toNat % 2 ^ 64 then 1 else 0)) % 2 ^ 64)

/-- 44_bitcount.md R134, R135, R136: the source's laws of the counts and the reversals. -/
def Obligations.CountAndReversalLaws : Prop :=
  ∀ (x b : Uint128) (c : Bit) (n : ShAmt),
    (outputsOf .clz x b c n).cnt.toNat + (outputsOf .blen x b c n).cnt.toNat = 128 ∧
    (outputsOf .popc x b c n).cnt.toNat + (outputsOf .popc (outputsOf .not x b c n).r b c n).cnt.toNat = 128 ∧
    (outputsOf .brev (outputsOf .brev x b c n).r b c n).r = x ∧
    (outputsOf .bswap (outputsOf .bswap x b c n).r b c n).r = x

/-- 44_bitcount.md R137: a reversal exchanges leading and trailing zeros and keeps the number of set bits; for a value that is not zero
the top set bit is bit `BLEN x - 1` and the three counts add up to at most 128. -/
def Obligations.ReversalExchangesTheZeroCounts : Prop :=
  ∀ (x b : Uint128) (c : Bit) (n : ShAmt),
    let cnt : Instr → Uint128 → Nat := fun i v => (outputsOf i v b c n).cnt.toNat
    cnt .ctz (outputsOf .brev x b c n).r = cnt .clz x ∧ cnt .clz (outputsOf .brev x b c n).r = cnt .ctz x ∧
    cnt .popc (outputsOf .brev x b c n).r = cnt .popc x ∧ cnt .popc (outputsOf .bswap x b c n).r = cnt .popc x ∧
    (x ≠ 0#128 →
      x.getLsbD (cnt .blen x - 1) = true ∧ (∀ i, cnt .blen x ≤ i → x.getLsbD i = false) ∧
      cnt .clz x + cnt .ctz x + cnt .popc x ≤ 128)

/-! Invariants and runs -/

/-- The invariant of the ports holds at power-up. -/
def Obligations.InvariantHoldsAtPowerUp : Prop := State.reset.Inv

/-- Every step keeps the invariant of the ports: settled outputs come from inputs that are all driven and are what the rules give for
them. With every input driven, a step settles the outputs. -/
def Obligations.EveryStepKeepsTheInvariant : Prop :=
  ∀ s t : State, s.Inv → step s = .next t → t.Inv ∧ (s.driven.all = true → t.settled = true)

/-- Every run of host acts and evaluations goes on to its end and keeps the invariant of the ports. -/
def Obligations.EveryRunKeepsTheInvariant : Prop :=
  ∀ (es : List Event) (s : State), s.Inv → ∃ t, runEvents s es = .next t ∧ t.Inv

/-- A host that samples settled outputs only (R160) reads, at every sampling, exactly what the rules give for the inputs it holds
then. -/
def Obligations.SafeRunsReadWhatTheRulesGive : Prop :=
  ∀ (es : List Event) (s : State), s.Inv → safeRun s es = true → ∀ x ∈ samples s es, MeetsRules x.1 x.2
end

