-- ==== Sys2Proof/Laws/State.lean ====
section
/-! SUPPORT. One lemma for each field of the state under each update of it, true by unfolding. -/

namespace Sys2Proof.Machine

@[simp] theorem State.shows_inp (s : State) (o : Outputs) : (s.shows o).inp = s.inp := rfl
@[simp] theorem State.shows_driven (s : State) (o : Outputs) : (s.shows o).driven = s.driven := rfl
@[simp] theorem State.shows_out (s : State) (o : Outputs) : (s.shows o).out = o := rfl
@[simp] theorem State.shows_settled (s : State) (o : Outputs) : (s.shows o).settled = true := rfl
@[simp] theorem State.shows_draws (s : State) (o : Outputs) : (s.shows o).draws = s.draws := rfl

@[simp] theorem State.redraw_inp (s : State) : s.redraw.inp = s.inp := rfl
@[simp] theorem State.redraw_driven (s : State) : s.redraw.driven = s.driven := rfl
@[simp] theorem State.redraw_out (s : State) : s.redraw.out = Outputs.drawn s.draws := rfl
@[simp] theorem State.redraw_settled (s : State) : s.redraw.settled = false := rfl
@[simp] theorem State.redraw_draws (s : State) : s.redraw.draws = s.draws + 1 := rfl

/-- Showing outputs twice is showing the second ones. -/
@[simp] theorem State.shows_shows (s : State) (o o' : Outputs) : (s.shows o).shows o' = s.shows o' := rfl

@[simp] theorem onlyR_r (v : Uint128) : (onlyR v).r = v := rfl
@[simp] theorem onlyR_cout (v : Uint128) : (onlyR v).cout = 0#1 := rfl
@[simp] theorem onlyR_cmp (v : Uint128) : (onlyR v).cmp = 0#2 := rfl
@[simp] theorem onlyR_cnt (v : Uint128) : (onlyR v).cnt = 0#8 := rfl
@[simp] theorem onlyR_zf (v : Uint128) : (onlyR v).zf = 0#1 := rfl
@[simp] theorem onlyR_ill (v : Uint128) : (onlyR v).ill = 0#1 := rfl

@[simp] theorem onlyCnt_r (c : Nat) : (onlyCnt c).r = 0#128 := rfl
@[simp] theorem onlyCnt_cout (c : Nat) : (onlyCnt c).cout = 0#1 := rfl
@[simp] theorem onlyCnt_cmp (c : Nat) : (onlyCnt c).cmp = 0#2 := rfl
@[simp] theorem onlyCnt_cnt (c : Nat) : (onlyCnt c).cnt = BitVec.ofNat 8 c := rfl
@[simp] theorem onlyCnt_zf (c : Nat) : (onlyCnt c).zf = 0#1 := rfl
@[simp] theorem onlyCnt_ill (c : Nat) : (onlyCnt c).ill = 0#1 := rfl

@[simp] theorem Driven.every_all : Driven.every.all = true := rfl
@[simp] theorem Driven.none_all : Driven.none.all = false := rfl

/-- Every port is driven exactly when each one is. -/
theorem Driven.all_iff (d : Driven) : d.all = true ↔ d = Driven.every := by
  obtain ⟨o, a, b, c, n⟩ := d
  cases o <;> cases a <;> cases b <;> cases c <;> cases n <;> decide

end Sys2Proof.Machine
end

