-- ==== Sys2Proof/Laws/Ops.lean ====
section
/-! SUPPORT. For each shared operation, one lemma that says everything it can do. -/

namespace Sys2Proof.Machine

/-- With every input driven an evaluation settles the outputs at the function of the inputs. -/
theorem evaluate_of_driven {s : State} (h : s.driven.all = true) (f : Inputs → Outputs) :
    evaluate s f = .next (s.shows (f s.inp)) := by
  simp [evaluate, h]

/-- With an input floating an evaluation leaves the outputs unspecified. -/
theorem evaluate_of_floating {s : State} (h : s.driven.all = false) (f : Inputs → Outputs) :
    evaluate s f = .next s.redraw := by
  simp [evaluate, h]

/-- An evaluation always answers a next state, one of these two. -/
theorem evaluate_cases (s : State) (f : Inputs → Outputs) :
    (s.driven.all = true ∧ evaluate s f = .next (s.shows (f s.inp))) ∨
      (s.driven.all = false ∧ evaluate s f = .next s.redraw) := by
  cases h : s.driven.all
  · exact .inr ⟨rfl, evaluate_of_floating h f⟩
  · exact .inl ⟨rfl, evaluate_of_driven h f⟩

/-- A change of inputs: nothing, when nothing changes; else the new inputs with the outputs drawn anew. -/
theorem setInputs_cases (s : State) (p : Inputs) (d : Driven) :
    (p = s.inp ∧ d = s.driven ∧ s.setInputs p d = s) ∨
      (¬(p = s.inp ∧ d = s.driven) ∧ s.setInputs p d = { s with inp := p, driven := d }.redraw) := by
  by_cases h : p = s.inp ∧ d = s.driven
  · exact .inl ⟨h.1, h.2, if_pos h⟩
  · exact .inr ⟨h, if_neg h⟩

@[simp] theorem setInputs_inp (s : State) (p : Inputs) (d : Driven) : (s.setInputs p d).inp = p := by
  obtain ⟨hp, -, h⟩ | ⟨-, h⟩ := setInputs_cases s p d
  · rw [h, hp]
  · rw [h]; rfl

@[simp] theorem setInputs_driven (s : State) (p : Inputs) (d : Driven) : (s.setInputs p d).driven = d := by
  obtain ⟨-, hd, h⟩ | ⟨-, h⟩ := setInputs_cases s p d
  · rw [h, hd]
  · rw [h]; rfl

@[simp] theorem drive_inp (s : State) (p : Inputs) : (s.drive p).inp = p := setInputs_inp s p _

@[simp] theorem drive_driven (s : State) (p : Inputs) : (s.drive p).driven = Driven.every := setInputs_driven s p _

/-- Sampling settled outputs changes nothing. -/
theorem sample_of_settled {s : State} (h : s.settled = true) : s.sample = s := by simp [State.sample, h]

/-- Sampling outputs that are not settled draws them anew. -/
theorem sample_of_unsettled {s : State} (h : s.settled = false) : s.sample = s.redraw := by simp [State.sample, h]

/-- A settled act of the host leaves the state as it was: only an unchanged input or a sampling keeps the outputs settled. -/
theorem act_settled {s : State} {h : HostAct} (hs : (s.act h).settled = true) : s.act h = s := by
  have key : ∀ p d, (s.setInputs p d).settled = true → s.setInputs p d = s := by
    intro p d hh
    obtain ⟨-, -, h⟩ | ⟨-, h⟩ := setInputs_cases s p d
    · exact h
    · rw [h] at hh; cases hh
  cases h with
  | sample =>
    cases h2 : s.settled
    · rw [State.act, sample_of_unsettled h2] at hs; cases hs
    · exact sample_of_settled h2
  | _ => exact key _ _ hs

end Sys2Proof.Machine
end

