-- ==== Sys2Proof/Laws/Exec.lean ====
section
/-! SUPPORT. Each operation as an evaluation of its function of the inputs: one lemma for each arm of exec. -/

namespace Sys2Proof.Machine

theorem exec_cmp (s : State) :
    exec .cmp s = evaluate s fun p => { Outputs.zero with cmp := cmpCode (compare128 p.a p.b) } := rfl
theorem exec_isz (s : State) : exec .isz s = evaluate s fun p => { Outputs.zero with zf := zeroFlag p.a } := rfl
theorem exec_and (s : State) : exec .and s = evaluate s fun p => onlyR (and128 p.a p.b) := rfl
theorem exec_andn (s : State) : exec .andn s = evaluate s fun p => onlyR (andn128 p.a p.b) := rfl
theorem exec_or (s : State) : exec .or s = evaluate s fun p => onlyR (or128 p.a p.b) := rfl
theorem exec_xor (s : State) : exec .xor s = evaluate s fun p => onlyR (xor128 p.a p.b) := rfl
theorem exec_not (s : State) : exec .not s = evaluate s fun p => onlyR (not128 p.a) := rfl
theorem exec_shl (s : State) : exec .shl s = evaluate s fun p => onlyR (shl128 p.a (shiftAmount p)) := rfl
theorem exec_shr (s : State) : exec .shr s = evaluate s fun p => onlyR (shr128 p.a (shiftAmount p)) := rfl
theorem exec_addc (s : State) : exec .addc s = evaluate s fun p =>
    { Outputs.zero with r := (addc128 p.a p.b (carryIn p)).1, cout := (addc128 p.a p.b (carryIn p)).2 } := rfl
theorem exec_add (s : State) : exec .add s = evaluate s fun p => onlyR (addc128 p.a p.b 0#1).1 := rfl
theorem exec_inc (s : State) : exec .inc s = evaluate s fun p => onlyR (addc128 p.a one128 0#1).1 := rfl
theorem exec_sub (s : State) : exec .sub s = evaluate s fun p => onlyR (sub128 p.a p.b) := rfl
theorem exec_dec (s : State) : exec .dec s = evaluate s fun p => onlyR (sub128 p.a one128) := rfl
theorem exec_blen (s : State) : exec .blen s = evaluate s fun p => onlyCnt (bitLength128 p.a) := rfl
theorem exec_clz (s : State) : exec .clz s = evaluate s fun p => onlyCnt (leadingZeros128 p.a) := rfl
theorem exec_ctz (s : State) : exec .ctz s = evaluate s fun p => onlyCnt (trailingZeros128 p.a) := rfl
theorem exec_popc (s : State) : exec .popc s = evaluate s fun p => onlyCnt (onesCount128 p.a) := rfl
theorem exec_brev (s : State) : exec .brev s = evaluate s fun p => onlyR (reverseBits128 p.a) := rfl
theorem exec_bswap (s : State) : exec .bswap s = evaluate s fun p => onlyR (reverseBytes128 p.a) := rfl

/-- The function of the inputs that each operation evaluates, gathered from the lemmas above for proofs over all operations. -/
def operate : Instr → Inputs → Outputs
  | .cmp, p => { Outputs.zero with cmp := cmpCode (compare128 p.a p.b) }
  | .isz, p => { Outputs.zero with zf := zeroFlag p.a }
  | .and, p => onlyR (and128 p.a p.b)
  | .andn, p => onlyR (andn128 p.a p.b)
  | .or, p => onlyR (or128 p.a p.b)
  | .xor, p => onlyR (xor128 p.a p.b)
  | .not, p => onlyR (not128 p.a)
  | .shl, p => onlyR (shl128 p.a (shiftAmount p))
  | .shr, p => onlyR (shr128 p.a (shiftAmount p))
  | .addc, p => { Outputs.zero with r := (addc128 p.a p.b (carryIn p)).1, cout := (addc128 p.a p.b (carryIn p)).2 }
  | .add, p => onlyR (addc128 p.a p.b 0#1).1
  | .inc, p => onlyR (addc128 p.a one128 0#1).1
  | .sub, p => onlyR (sub128 p.a p.b)
  | .dec, p => onlyR (sub128 p.a one128)
  | .blen, p => onlyCnt (bitLength128 p.a)
  | .clz, p => onlyCnt (leadingZeros128 p.a)
  | .ctz, p => onlyCnt (trailingZeros128 p.a)
  | .popc, p => onlyCnt (onesCount128 p.a)
  | .brev, p => onlyR (reverseBits128 p.a)
  | .bswap, p => onlyR (reverseBytes128 p.a)

/-- Every operation is the evaluation of its function of the inputs. -/
theorem exec_eq_evaluate (i : Instr) (s : State) : exec i s = evaluate s (operate i) := by cases i <;> rfl

/-- A step is an evaluation of some function of the inputs, fixed by the select alone. -/
theorem step_is_evaluate (op : OpCode) : ∃ f : Inputs → Outputs, ∀ s : State, s.inp.op = op → step s = evaluate s f := by
  cases hd : decode op with
  | operation i => exact ⟨operate i, fun s hs => by rw [step, hs, hd]; exact exec_eq_evaluate i s⟩
  | reserved => exact ⟨fun _ => illegalOutputs, fun s hs => by rw [step, hs, hd]; rfl⟩

end Sys2Proof.Machine
end

