-- ==== Sys2Proof/Laws/Halfword.lean ====
section
/-! SUPPORT. One spec lemma for each halfword primitive (00_scope.md R13 to R23). -/

namespace Sys2Proof.Machine

theorem hi_toNat (v : Uint128) : (hi v).toNat = v.toNat / 2 ^ 64 := by
  have := v.isLt
  simp [hi, BitVec.extractLsb'_toNat, Nat.shiftRight_eq_div_pow]
  omega

theorem lo_toNat (v : Uint128) : (lo v).toNat = v.toNat % 2 ^ 64 := by
  simp [lo, BitVec.extractLsb'_toNat]

theorem pair_toNat (h l : Half) : (pair h l).toNat = h.toNat * 2 ^ 64 + l.toNat := by
  have := l.isLt
  rw [pair, BitVec.toNat_append, Nat.shiftLeft_eq, Nat.mul_comm, ← Nat.two_pow_add_eq_or_of_lt this]

/-- R13: `val(v) = val(hi(v)) * 2^64 + val(lo(v))`. -/
theorem toNat_halves (v : Uint128) : v.toNat = (hi v).toNat * 2 ^ 64 + (lo v).toNat := by
  rw [hi_toNat, lo_toNat]; omega

theorem hi_getLsbD (v : Uint128) (i : Nat) (h : i < 64) : (hi v).getLsbD i = v.getLsbD (64 + i) := by
  simp [hi, h]

theorem lo_getLsbD (v : Uint128) (i : Nat) (h : i < 64) : (lo v).getLsbD i = v.getLsbD i := by
  simp [lo, h]

theorem pair_getLsbD (h l : Half) (i : Nat) :
    (pair h l).getLsbD i = if i < 64 then l.getLsbD i else h.getLsbD (i - 64) := by
  rw [pair, BitVec.getLsbD_append]

theorem pair_hi_lo (v : Uint128) : pair (hi v) (lo v) = v := by
  apply BitVec.eq_of_toNat_eq; rw [pair_toNat, toNat_halves v]

theorem b2v_toNat (c : Bool) : (b2v c).toNat = if c then 1 else 0 := by cases c <;> rfl

/-- R14: the sum and the carry are the exact sum. -/
theorem add64c_value (x y : Half) (c : Bit) :
    (add64c x y c).1.toNat + 2 ^ 64 * (add64c x y c).2.toNat = x.toNat + y.toNat + c.toNat := by
  have hx := x.isLt; have hy := y.isLt; have hc := c.isLt
  simp only [add64c, BitVec.toNat_ofNat, b2v_toNat, decide_eq_true_eq]
  split <;> omega

/-- R15: the difference wraps modulo 2^64. -/
theorem sub64_toNat (x y : Half) :
    (sub64 x y).toNat = if y.toNat ≤ x.toNat then x.toNat - y.toNat else 2 ^ 64 + x.toNat - y.toNat := by
  have hx := x.isLt; have hy := y.isLt
  rw [sub64, BitVec.toNat_sub]
  split <;> omega

/-- R16: `shl64(v, k) = bv_64(val(v) * 2^k)` for every `k`. -/
theorem shl64_toNat (v : Half) (k : Nat) : (shl64 v k).toNat = v.toNat * 2 ^ k % 2 ^ 64 := by
  rw [shl64, BitVec.toNat_shiftLeft, Nat.shiftLeft_eq]

/-- R17: `shr64(v, k) = bv_64(floor(val(v) / 2^k))` for every `k`. -/
theorem shr64_toNat (v : Half) (k : Nat) : (shr64 v k).toNat = v.toNat / 2 ^ k := by
  rw [shr64, BitVec.toNat_ushiftRight, Nat.shiftRight_eq_div_pow]

/-- A set bit of a value lies below any power of two the value is less than. -/
theorem bitlenBelow_le (v : Half) (k : Nat) : bitlenBelow v k ≤ k := by
  induction k with
  | zero => exact Nat.le_refl 0
  | succ k ih => simp only [bitlenBelow]; split <;> omega

/-- The bit length below `k` is above every set bit below `k`. -/
theorem bitlenBelow_clear (v : Half) (k i : Nat) (hk : i < k) (hi : bitlenBelow v k ≤ i) : v.getLsbD i = false := by
  induction k with
  | zero => omega
  | succ k ih =>
    simp only [bitlenBelow] at hi
    split at hi
    · omega
    · rename_i hc
      by_cases hik : i = k
      · subst hik; simpa using hc
      · exact ih (by omega) hi

/-- The bit length below `k` is one above a set bit, unless it is 0. -/
theorem bitlenBelow_set (v : Half) (k i : Nat) (hi : bitlenBelow v k = i + 1) : v.getLsbD i = true := by
  induction k with
  | zero => cases hi
  | succ k ih =>
    simp only [bitlenBelow] at hi
    split at hi
    · rename_i hc; obtain rfl : k = i := by omega
      exact hc
    · exact ih hi

/-- R18: the bit length is the least power of two above the value. -/
theorem bitlen64_spec (v : Half) : bitlen64 v = if v.toNat = 0 then 0 else Nat.log2 v.toNat + 1 := by
  cases hb : bitlen64 v with
  | zero =>
    have : v = 0#64 := by
      apply BitVec.eq_of_getLsbD_eq
      intro i hi
      rw [bitlenBelow_clear v 64 i hi (by rw [bitlen64] at hb; omega)]; simp
    simp [this]
  | succ i =>
    have hset := bitlenBelow_set v 64 i hb
    have hle := bitlenBelow_le v 64
    rw [bitlen64] at hb
    have hlow : 2 ^ i ≤ v.toNat := Nat.ge_two_pow_of_testBit hset
    have hhigh : v.toNat < 2 ^ (i + 1) := by
      apply Nat.lt_pow_two_of_testBit
      intro j hj
      by_cases h64 : j < 64
      · exact bitlenBelow_clear v 64 j h64 (by omega)
      · exact v.getLsbD_of_ge j (by omega)
    have hne : v.toNat ≠ 0 := by have := Nat.two_pow_pos i; omega
    have hlog : Nat.log2 v.toNat = i := (Nat.log2_eq_iff hne).2 ⟨hlow, hhigh⟩
    rw [if_neg hne, hlog]

/-- R19: every bit below `tz64` is clear. -/
theorem tz64_clear (v : Half) (i : Nat) (h : i < tz64 v) : v.getLsbD i = false := by
  have h64 : tz64 v ≤ 64 := by
    simpa [tz64] using List.findIdx_le_length (xs := List.range 64) (p := fun i => v.getLsbD i)
  have := List.not_of_lt_findIdx (xs := List.range 64) (p := fun i => v.getLsbD i) h
  simpa using this

/-- R19: the bit at `tz64` is set, unless it is 64. -/
theorem tz64_set (v : Half) (h : tz64 v < 64) : v.getLsbD (tz64 v) = true := by
  have hl : (List.range 64).findIdx (fun i => v.getLsbD i) < (List.range 64).length := by simpa [tz64] using h
  have := List.findIdx_getElem (w := hl)
  simpa [tz64] using this

theorem tz64_le (v : Half) : tz64 v ≤ 64 := by
  simpa [tz64] using List.findIdx_le_length (xs := List.range 64) (p := fun i => v.getLsbD i)

/-- R20: the number of set bits. -/
theorem pop64_eq_card (v : Half) : pop64 v = ((Finset.range 64).filter fun i => v.getLsbD i = true).card := by
  rw [pop64, List.countP_eq_length_filter, ← List.toFinset_card_of_nodup (List.nodup_range.filter _)]
  congr 1
  ext i
  simp

/-- Which bits of the reversal come from the `k` low bits. -/
theorem revBelow_getLsbD (v : Half) (k i : Nat) (hk : k ≤ 64) (hi : i < 64) :
    (revBelow v k).getLsbD i = (decide (63 - i < k) && v.getLsbD (63 - i)) := by
  induction k with
  | zero => simp [revBelow]
  | succ k ih =>
    have e := ih (by omega)
    simp only [revBelow]
    by_cases h : 63 - i = k
    · split_ifs with hv
      · rw [BitVec.getLsbD_or, BitVec.getLsbD_twoPow, h, hv]; simp; omega
      · rw [e, h]; simp at hv; simp [hv]
    · have hd : decide (63 - i < k + 1) = decide (63 - i < k) := by rw [decide_eq_decide]; omega
      split_ifs
      · rw [BitVec.getLsbD_or, BitVec.getLsbD_twoPow, e, hd]
        have : ¬ 63 - k = i := by omega
        simp [this]
      · rw [e, hd]

/-- R21: `rev64(v)[i] = v[63 - i]`. -/
theorem rev64_getLsbD (v : Half) (i : Nat) (h : i < 64) : (rev64 v).getLsbD i = v.getLsbD (63 - i) := by
  rw [rev64, revBelow_getLsbD v 64 i (Nat.le_refl 64) h, decide_eq_true (by omega), Bool.true_and]

/-- The eight bytes of a byte-reversed half, bit by bit, from the lowest. -/
theorem bswap64_getLsbD (v : Half) (i : Nat) (h : i < 64) :
    (bswap64 v).getLsbD i = v.getLsbD (8 * (7 - i / 8) + i % 8) := by
  show @BitVec.getLsbD (8 + 8 + 8 + 8 + 8 + 8 + 8 + 8) _ i = _
  simp only [bswap64, BitVec.getLsbD_append, byteOf, BitVec.getLsbD_extractLsb']
  split_ifs <;>
    refine (congrArg₂ (· && ·) (decide_eq_true (by omega)) (congrArg v.getLsbD ?_)).trans (Bool.true_and _) <;> omega

/-- R23: byte `k` of `bswap64(v)` is byte `7 - k` of `v`. -/
theorem bswap64_byte (v : Half) (k : Nat) (h : k < 8) : byteOf (bswap64 v) k = byteOf v (7 - k) := by
  apply BitVec.eq_of_getLsbD_eq
  intro i hi
  have h1 : (8 * k + i) / 8 = k := by omega
  have h2 : (8 * k + i) % 8 = i := by omega
  simp only [byteOf, BitVec.getLsbD_extractLsb', hi, decide_true, Bool.true_and]
  rw [bswap64_getLsbD v _ (by omega), h1, h2]

end Sys2Proof.Machine
end

