-- ==== Sys2Proof/Laws/PerInstr.lean ====
section
/-! SUPPORT. Facts about each operation as syntax, one lemma for each constructor. -/

namespace Sys2Proof.Laws

/-- The field `op[4:3]` of an operation's select names its unit (30_encoding.md R64, R65). -/
def UnitField.Statement (i : Instr) : Prop := unitField (encode i) = i.unit.code

theorem UnitField.cmp : UnitField.Statement .cmp := by unfold UnitField.Statement; decide
theorem UnitField.isz : UnitField.Statement .isz := by unfold UnitField.Statement; decide
theorem UnitField.and : UnitField.Statement .and := by unfold UnitField.Statement; decide
theorem UnitField.andn : UnitField.Statement .andn := by unfold UnitField.Statement; decide
theorem UnitField.or : UnitField.Statement .or := by unfold UnitField.Statement; decide
theorem UnitField.xor : UnitField.Statement .xor := by unfold UnitField.Statement; decide
theorem UnitField.not : UnitField.Statement .not := by unfold UnitField.Statement; decide
theorem UnitField.shl : UnitField.Statement .shl := by unfold UnitField.Statement; decide
theorem UnitField.shr : UnitField.Statement .shr := by unfold UnitField.Statement; decide
theorem UnitField.addc : UnitField.Statement .addc := by unfold UnitField.Statement; decide
theorem UnitField.add : UnitField.Statement .add := by unfold UnitField.Statement; decide
theorem UnitField.inc : UnitField.Statement .inc := by unfold UnitField.Statement; decide
theorem UnitField.sub : UnitField.Statement .sub := by unfold UnitField.Statement; decide
theorem UnitField.dec : UnitField.Statement .dec := by unfold UnitField.Statement; decide
theorem UnitField.blen : UnitField.Statement .blen := by unfold UnitField.Statement; decide
theorem UnitField.clz : UnitField.Statement .clz := by unfold UnitField.Statement; decide
theorem UnitField.ctz : UnitField.Statement .ctz := by unfold UnitField.Statement; decide
theorem UnitField.popc : UnitField.Statement .popc := by unfold UnitField.Statement; decide
theorem UnitField.brev : UnitField.Statement .brev := by unfold UnitField.Statement; decide
theorem UnitField.bswap : UnitField.Statement .bswap := by unfold UnitField.Statement; decide

end Sys2Proof.Laws
end

