-- ==== Sys2Proof/Laws/Value.lean ====
section
/-! SUPPORT. One spec lemma for each 128-bit function of the units: what its halfword pseudocode computes, over the whole value. -/

namespace Sys2Proof.Machine

theorem one128_toNat : one128.toNat = 1 := by decide

/-! Comparison (40_compare.md) -/

theorem compare128_spec (x y : Uint128) :
    compare128 x y = if y.toNat < x.toNat then 1 else if x.toNat < y.toNat then -1 else 0 := by
  have hx := toNat_halves x; have hy := toNat_halves y
  have := (lo x).isLt; have := (lo y).isLt
  unfold compare128
  split_ifs <;> first | rfl | omega

theorem zeroFlag_spec (x : Uint128) : zeroFlag x = if x.toNat = 0 then 1#1 else 0#1 := by
  have hx := toNat_halves x
  by_cases h : x.toNat = 0
  · have h1 : (hi x).toNat = 0 := by omega
    have h2 : (lo x).toNat = 0 := by omega
    simp [zeroFlag, b2v, h, h1, h2]
  · have h' : ¬((hi x).toNat = 0 ∧ (lo x).toNat = 0) := by omega
    have hb : ((hi x).toNat == 0 && (lo x).toNat == 0) = false := by
      rw [Bool.eq_false_iff]; simpa using h'
    rw [zeroFlag, hb, if_neg h]; rfl

/-! Logic (41_logic.md): the per-halfword form is the operator on the whole vector (R90) -/

/-- Two values are equal when their halves are. -/
theorem eq_pair {x : Uint128} {h l : Half} (hh : hi x = h) (hl : lo x = l) : pair h l = x := by
  rw [← hh, ← hl, pair_hi_lo]

theorem and128_spec (x y : Uint128) : and128 x y = x &&& y :=
  eq_pair BitVec.extractLsb'_and BitVec.extractLsb'_and

theorem or128_spec (x y : Uint128) : or128 x y = x ||| y :=
  eq_pair BitVec.extractLsb'_or BitVec.extractLsb'_or

theorem xor128_spec (x y : Uint128) : xor128 x y = x ^^^ y :=
  eq_pair BitVec.extractLsb'_xor BitVec.extractLsb'_xor

theorem halves_not (x : Uint128) : hi (~~~x) = ~~~(hi x) ∧ lo (~~~x) = ~~~(lo x) := by
  constructor <;> apply BitVec.eq_of_getLsbD_eq <;> intro i h64
  · rw [hi_getLsbD _ _ h64, BitVec.getLsbD_not, BitVec.getLsbD_not, hi_getLsbD _ _ h64]; simp [h64]; omega
  · rw [lo_getLsbD _ _ h64, BitVec.getLsbD_not, BitVec.getLsbD_not, lo_getLsbD _ _ h64]; simp [h64]; omega

theorem not128_spec (x : Uint128) : not128 x = ~~~x := eq_pair (halves_not x).1 (halves_not x).2

theorem andn128_spec (x y : Uint128) : andn128 x y = x &&& ~~~y := by
  rw [← and128_spec, and128, (halves_not y).1, (halves_not y).2, andn128]

/-! Shifts (42_shift.md R103) -/

theorem shl128_eq (x : Uint128) (k : Nat) : shl128 x k = x <<< k := by
  apply BitVec.eq_of_getLsbD_eq
  intro i hi128
  unfold shl128
  split_ifs with h1 h2
  · simp; omega
  · rw [pair_getLsbD]
    split_ifs with h3
    · simp; omega
    · simp only [shl64, BitVec.getLsbD_shiftLeft]
      by_cases h4 : i < k
      · rw [decide_eq_true (show i - 64 < k - 64 by omega)]; simp [h4]
      · rw [lo_getLsbD _ _ (by omega)]
        have e : i - 64 - (k - 64) = i - k := by omega
        simp [h4, e, hi128]; omega
  · rw [pair_getLsbD]
    split_ifs with h3
    · simp only [shl64, BitVec.getLsbD_shiftLeft]
      by_cases h4 : i < k
      · simp [h4]
      · rw [lo_getLsbD _ _ (by omega)]; simp [h3, hi128]
    · simp only [shl64, shr64, BitVec.getLsbD_or, BitVec.getLsbD_shiftLeft, BitVec.getLsbD_ushiftRight]
      by_cases h4 : i - 64 < k
      · rw [lo_getLsbD _ _ (by omega)]
        have e : 64 - k + (i - 64) = i - k := by omega
        simp [h4, e, hi128]; omega
      · rw [hi_getLsbD _ _ (by omega), (lo x).getLsbD_of_ge _ (by omega)]
        have e : 64 + (i - 64 - k) = i - k := by omega
        have h5 : ¬i < k := by omega
        have h6 : i - 64 < 64 := by omega
        simp [h4, h5, h6, e, hi128]

theorem shr128_eq (x : Uint128) (k : Nat) : shr128 x k = x >>> k := by
  apply BitVec.eq_of_getLsbD_eq
  intro i hi128
  unfold shr128
  split_ifs with h1 h2
  · simp; rw [x.getLsbD_of_ge _ (by omega)]
  · rw [pair_getLsbD]
    split_ifs with h3
    · simp only [shr64, BitVec.getLsbD_ushiftRight]
      by_cases h4 : k - 64 + i < 64
      · rw [hi_getLsbD _ _ h4]; congr 1; omega
      · rw [(hi x).getLsbD_of_ge _ (by omega), x.getLsbD_of_ge _ (by omega)]
    · simp; rw [x.getLsbD_of_ge _ (by omega)]
  · rw [pair_getLsbD]
    split_ifs with h3
    · simp only [shl64, shr64, BitVec.getLsbD_or, BitVec.getLsbD_shiftLeft, BitVec.getLsbD_ushiftRight]
      by_cases h4 : k + i < 64
      · rw [lo_getLsbD _ _ h4]; simp; omega
      · rw [(lo x).getLsbD_of_ge _ (by omega), hi_getLsbD _ _ (by omega)]
        have e : 64 + (i - (64 - k)) = k + i := by omega
        simp [e, h3]; omega
    · simp only [shr64, BitVec.getLsbD_ushiftRight]
      by_cases h4 : k + (i - 64) < 64
      · rw [hi_getLsbD _ _ h4]; congr 1; omega
      · rw [(hi x).getLsbD_of_ge _ (by omega), x.getLsbD_of_ge _ (by omega)]

theorem shl128_toNat (x : Uint128) (k : Nat) : (shl128 x k).toNat = x.toNat * 2 ^ k % 2 ^ 128 := by
  rw [shl128_eq, BitVec.toNat_shiftLeft, Nat.shiftLeft_eq]

theorem shr128_toNat (x : Uint128) (k : Nat) : (shr128 x k).toNat = x.toNat / 2 ^ k := by
  rw [shr128_eq, BitVec.toNat_ushiftRight, Nat.shiftRight_eq_div_pow]

/-! Addition and subtraction (43_addsub.md R116, R117) -/

theorem addc128_value (x y : Uint128) (c : Bit) :
    (addc128 x y c).1.toNat + 2 ^ 128 * (addc128 x y c).2.toNat = x.toNat + y.toNat + c.toNat := by
  have hl := add64c_value (lo x) (lo y) c
  have hh := add64c_value (hi x) (hi y) (add64c (lo x) (lo y) c).2
  rw [toNat_halves x, toNat_halves y]
  simp only [addc128, pair_toNat]
  omega

theorem addc128_toNat (x y : Uint128) (c : Bit) :
    (addc128 x y c).1.toNat = (x.toNat + y.toNat + c.toNat) % 2 ^ 128 := by
  have := addc128_value x y c; have := (addc128 x y c).1.isLt
  omega

/-- R117: the source's borrow test is exact. -/
theorem borrow_iff (x y : Half) : x.toNat < (sub64 x y).toNat ↔ x.toNat < y.toNat := by
  have := x.isLt; have := y.isLt
  rw [sub64_toNat]; split <;> omega

theorem sub128_toNat (x y : Uint128) : (sub128 x y).toNat = (2 ^ 128 + x.toNat - y.toNat) % 2 ^ 128 := by
  have hx := toNat_halves x; have hy := toNat_halves y
  have := (lo x).isLt; have := (lo y).isLt; have := (hi x).isLt; have := (hi y).isLt
  have hb : ((b2v (decide ((lo x).toNat < (sub64 (lo x) (lo y)).toNat))).setWidth 64).toNat
      = if (lo x).toNat < (lo y).toNat then 1 else 0 := by
    rw [BitVec.toNat_setWidth, b2v_toNat]
    simp only [decide_eq_true_eq, borrow_iff]
    split <;> rfl
  simp only [sub128]
  rw [pair_toNat, sub64_toNat _ (BitVec.setWidth 64 _), hb, sub64_toNat, sub64_toNat]
  split_ifs <;> omega

/-! Bit counting (44_bitcount.md R133) -/

theorem bitLength128_spec (x : Uint128) : IsBitLength x (bitLength128 x) := by
  have hx := toNat_halves x
  have hl := (lo x).isLt
  unfold IsBitLength bitLength128
  by_cases h : (hi x).toNat = 0
  · rw [if_pos h, bitlen64_spec, show x.toNat = (lo x).toNat by omega]
  · have hne : x.toNat ≠ 0 := by omega
    have hlog : Nat.log2 x.toNat = 64 + Nat.log2 (hi x).toNat := by
      rw [Nat.log2_eq_iff hne]
      have h1 := (Nat.log2_eq_iff h).1 rfl
      rw [show 64 + Nat.log2 (hi x).toNat + 1 = (Nat.log2 (hi x).toNat + 1) + 64 by omega, Nat.pow_add 2 _ 64,
        Nat.add_comm 64, Nat.pow_add 2 _ 64]
      omega
    rw [if_neg h, if_neg hne, bitlen64_spec, if_neg h, hlog]; omega

theorem bitLength128_le (x : Uint128) : bitLength128 x ≤ 128 := by
  have h1 : bitlen64 (lo x) ≤ 64 := bitlenBelow_le _ _
  have h2 : bitlen64 (hi x) ≤ 64 := bitlenBelow_le _ _
  unfold bitLength128; split <;> omega

theorem trailingZeros128_le (x : Uint128) : trailingZeros128 x ≤ 128 := by
  have h1 := tz64_le (lo x); have h2 := tz64_le (hi x)
  unfold trailingZeros128; split <;> omega

theorem trailingZeros128_spec (x : Uint128) : IsTrailingZeros x (trailingZeros128 x) := by
  unfold IsTrailingZeros trailingZeros128
  have hclear : ∀ {v : Half} {i}, v.toNat = 0 → v.getLsbD i = false := by
    intro v i hv
    obtain rfl : v = 0#64 := BitVec.eq_of_toNat_eq (by simpa using hv)
    simp
  have hnz : ∀ {v : Half}, tz64 v = 64 → v.toNat = 0 := by
    intro v hv
    have : v = 0#64 := BitVec.eq_of_getLsbD_eq fun i hi => by rw [tz64_clear v i (by omega)]; simp
    simp [this]
  by_cases h : (lo x).toNat = 0
  · rw [if_pos h]
    by_cases h2 : tz64 (hi x) = 64
    · left
      have := toNat_halves x; have := hnz h2
      exact ⟨BitVec.eq_of_toNat_eq (by simp; omega), by omega⟩
    · have hlt : tz64 (hi x) < 64 := by have := tz64_le (hi x); omega
      right
      constructor
      · rw [← hi_getLsbD _ _ hlt]; exact tz64_set _ hlt
      · intro i hi'
        by_cases h3 : i < 64
        · rw [← lo_getLsbD _ _ h3]; exact hclear h
        · obtain ⟨j, rfl⟩ : ∃ j, i = 64 + j := ⟨i - 64, by omega⟩
          rw [← hi_getLsbD _ _ (by omega)]; exact tz64_clear _ _ (by omega)
  · rw [if_neg h]
    have hlt : tz64 (lo x) < 64 := by
      have := tz64_le (lo x)
      by_contra hc; exact h (hnz (by omega))
    right
    constructor
    · rw [← lo_getLsbD _ _ hlt]; exact tz64_set _ hlt
    · intro i hi'; rw [← lo_getLsbD _ _ (by omega)]; exact tz64_clear _ _ hi'

theorem onesCount128_spec (x : Uint128) : onesCount128 x = setBits x := by
  have hcount : ∀ (p : Nat → Bool) (n : Nat), ((Finset.range n).filter fun i => p i = true).card
      = (List.range n).countP p := by
    intro p n
    rw [List.countP_eq_length_filter, ← List.toFinset_card_of_nodup (List.nodup_range.filter _)]
    congr 1; ext i; simp
  have hr : List.range 128 = List.range 64 ++ (List.range 64).map (64 + ·) := by
    rw [← List.range_add]
  rw [setBits, hcount, onesCount128, hr, List.countP_append, List.countP_map, pop64, pop64, Nat.add_comm]
  congr 1
  · exact List.countP_congr fun i hi => by rw [lo_getLsbD _ _ (by simpa using hi)]
  · exact List.countP_congr fun i hi => by simp only [Function.comp]; rw [hi_getLsbD _ _ (by simpa using hi)]

theorem onesCount128_le (x : Uint128) : onesCount128 x ≤ 128 := by
  rw [onesCount128_spec, setBits]
  exact (Finset.card_filter_le _ _).trans (by simp)

/-! Reversal (44_bitcount.md R132) -/

theorem reverseBits128_spec (x : Uint128) : IsBitReversal x (reverseBits128 x) := by
  intro i hi'
  rw [reverseBits128, pair_getLsbD]
  split_ifs with h
  · rw [rev64_getLsbD _ _ h, hi_getLsbD _ _ (by omega)]; congr 1; omega
  · rw [rev64_getLsbD _ _ (by omega), lo_getLsbD _ _ (by omega)]; congr 1; omega

theorem reverseBytes128_getLsbD (x : Uint128) (i : Nat) (h : i < 128) :
    (reverseBytes128 x).getLsbD i = x.getLsbD (8 * (15 - i / 8) + i % 8) := by
  rw [reverseBytes128, pair_getLsbD]
  split_ifs with h'
  · rw [bswap64_getLsbD _ _ h', hi_getLsbD _ _ (by omega)]; congr 1; omega
  · rw [bswap64_getLsbD _ _ (by omega), lo_getLsbD _ _ (by omega)]; congr 1; omega

theorem reverseBytes128_spec (x : Uint128) : IsByteReversal x (reverseBytes128 x) := by
  intro k hk
  apply BitVec.eq_of_getLsbD_eq
  intro i hi'
  simp only [BitVec.getLsbD_extractLsb', hi', decide_true, Bool.true_and]
  rw [reverseBytes128_getLsbD _ _ (by omega)]; congr 1; omega

end Sys2Proof.Machine
end

