-- ==== Sys2Proof/Tests/Slice0.lean ====
section
/-! SUPPORT. The model's own tests. Expected values are the spec's: its encodings (30_encoding.md R65) and its vectors (V and S numbers of
95_test_vectors.md). The witnesses at the end meet the hypotheses of each obligation. -/

namespace Sys2Proof.Tests

open Sys2Proof.Machine

/-! ## The widths are the parameters of the spec (00_scope.md R5) -/

theorem test_widths : Uint128 = BitVec Config.W ∧ Half = BitVec Config.H ∧ OpCode = BitVec Config.OPW ∧
    ShAmt = BitVec Config.SHAMT_W ∧ Count = BitVec Config.CNT_W ∧ CmpCode = BitVec Config.CMP_W ∧ Bit = BitVec Config.CIN_W :=
  ⟨rfl, rfl, rfl, rfl, rfl, rfl, rfl⟩

/-! ## Decoding: each select written out from R65, `op[4]` first -/

theorem test_decode_compare : decode 0b00000#5 = .operation .cmp ∧ decode 0b00001#5 = .operation .isz := by decide
theorem test_decode_logic : decode 0b00010#5 = .operation .and ∧ decode 0b00011#5 = .operation .andn ∧
    decode 0b00100#5 = .operation .or ∧ decode 0b00101#5 = .operation .xor ∧ decode 0b00110#5 = .operation .not := by decide
theorem test_decode_shift : decode 0b01000#5 = .operation .shl ∧ decode 0b01001#5 = .operation .shr := by decide
theorem test_decode_addsub : decode 0b10000#5 = .operation .addc ∧ decode 0b10001#5 = .operation .add ∧
    decode 0b10010#5 = .operation .inc ∧ decode 0b10011#5 = .operation .sub ∧ decode 0b10100#5 = .operation .dec := by decide
theorem test_decode_bitcount : decode 0b11000#5 = .operation .blen ∧ decode 0b11001#5 = .operation .clz ∧
    decode 0b11010#5 = .operation .ctz ∧ decode 0b11011#5 = .operation .popc ∧ decode 0b11100#5 = .operation .brev ∧
    decode 0b11101#5 = .operation .bswap := by decide
theorem test_decode_reserved : decode 0b00111#5 = .reserved ∧ decode 0b01010#5 = .reserved ∧ decode 0b01111#5 = .reserved ∧
    decode 0b10101#5 = .reserved ∧ decode 0b10111#5 = .reserved ∧ decode 0b11110#5 = .reserved ∧
    decode 0b11111#5 = .reserved := by decide
/-- A number is refused by name: a reserved code, or one that does not fit the 5-bit port. -/
theorem test_decode_rejects_by_name :
    decodeWord 0b00111 = .error .reserved ∧ decodeWord 32 = .error .widerThanOp ∧ decodeWord 0b11101 = .ok .bswap := by decide
theorem test_decode_table_word : decodeTableWord 8 0b10001 = some .add ∧ decodeTableWord 8 0b01010 = none := by decide
/-- The fields of R64: unit and function. -/
theorem test_fields_of_select : unitField (encode .sub) = 0b10#2 ∧ fnField (encode .sub) = 0b011#3 ∧
    unitField (encode .bswap) = OpUnit.bitcount.code ∧ fnField (encode .bswap) = 0b101#3 := by decide
/-- R66: what each operation reads. -/
theorem test_operand_use :
    (∀ i ∈ [Instr.cmp, .and, .andn, .or, .xor, .add, .sub], i.reads = [.a, .b]) ∧
    (∀ i ∈ [Instr.isz, .not, .inc, .dec, .blen, .clz, .ctz, .popc, .brev, .bswap], i.reads = [.a]) ∧
    (∀ i ∈ [Instr.shl, .shr], i.reads = [.a, .n]) ∧ Instr.addc.reads = [.a, .b, .cin] := by decide
/-- A select driven right after power-up is evaluated by the next step. -/
theorem test_first_operation_runs :
    (match step (State.reset.withFetchWord 8 0b11001) with
      | .next t => t.settled && t.out.cnt == 128#8
      | _ => false) = true := by decide

/-! ## Well-formedness of a line: one ill-formed term for each check, and the examples of R70 -/

theorem test_line_well_formed :
    Line.wellFormed ⟨[.r, .cout], .addc, [.pair 0 1, .hex 0xFF, .count 0]⟩ = true ∧
    Line.wellFormed ⟨[.r], .shl, [.pair 0 1, .count 64]⟩ = true ∧
    Line.wellFormed ⟨[.cnt], .clz, [.hex 0xFF]⟩ = true ∧
    Line.wellFormed ⟨[.cmp], .cmp, [.pair 1 0, .pair 0 1]⟩ = true := by decide
theorem smoke_wrong_outputs : Line.wellFormed ⟨[.cout], .add, [.pair 0 1, .pair 0 1]⟩ = false := by decide
theorem smoke_outputs_out_of_order :
    Line.wellFormed ⟨[.cout, .r], .addc, [.pair 0 1, .pair 0 1, .count 0]⟩ = false := by decide
theorem smoke_too_few_operands : Line.wellFormed ⟨[.r], .add, [.pair 0 1]⟩ = false := by decide
theorem smoke_too_many_operands : Line.wellFormed ⟨[.r], .not, [.pair 0 1, .pair 0 1]⟩ = false := by decide
theorem smoke_wrong_operand_kind : Line.wellFormed ⟨[.r], .shl, [.pair 0 1, .pair 0 64]⟩ = false := by decide
theorem smoke_count_for_a_value : Line.wellFormed ⟨[.r], .not, [.count 1]⟩ = false := by decide
theorem smoke_hex_too_wide : Line.wellFormed ⟨[.r], .not, [.hex (2 ^ 128)]⟩ = false := by decide
theorem smoke_shift_amount_too_wide : Line.wellFormed ⟨[.r], .shr, [.pair 0 1, .count (2 ^ 64)]⟩ = false := by decide
theorem smoke_carry_in_not_a_bit :
    Line.wellFormed ⟨[.r, .cout], .addc, [.pair 0 1, .pair 0 1, .count 2]⟩ = false := by decide

/-! ## One evaluation on driven ports, against the spec's vectors -/

/-- Ports driven with the select of `i` and the operands given. -/
def ports (i : Instr) (a b : Uint128) (cin : Bit) (n : ShAmt) : State :=
  { inp := { op := encode i, a := a, b := b, cin := cin, n := n }, driven := Driven.every, out := Outputs.zero,
    settled := false, draws := 0 }

/-- What the output ports show after an evaluation. -/
def shown (o : Host.Outcome State Fault Refusal) : Option Outputs :=
  match o with
  | .next t => some t.out
  | _ => none

/-- V8 -/
theorem test_cmp_high_decides : shown (exec .cmp (ports .cmp (pair 0x1#64 0x0#64) (pair 0x0#64 0xFFFFFFFFFFFFFFFF#64) 1#1 3#64)) = some { Outputs.zero with cmp := 0b01#2 } := by decide

/-- V6 -/
theorem test_cmp_tie_low_decides : shown (exec .cmp (ports .cmp (pair 0x5#64 0x1#64) (pair 0x5#64 0x2#64) 1#1 3#64)) = some { Outputs.zero with cmp := 0b11#2 } := by decide

/-- V14 -/
theorem test_isz_zero : shown (exec .isz (ports .isz (pair 0x0#64 0x0#64) (pair 0x5#64 0x6#64) 1#1 3#64)) = some { Outputs.zero with zf := 1#1 } := by decide

/-- V18 -/
theorem test_isz_high_only : shown (exec .isz (ports .isz (pair 0x8000000000000000#64 0x0#64) (pair 0x5#64 0x6#64) 1#1 3#64)) = some Outputs.zero := by decide

/-- V19 -/
theorem test_and_patterns : shown (exec .and (ports .and (pair 0x123456789ABCDEF#64 0xFEDCBA9876543210#64) (pair 0xF0F0F0F0F0F0F0F#64 0xFFFF0000FFFF0000#64) 1#1 3#64)) = some { Outputs.zero with r := (pair 0x1030507090B0D0F#64 0xFEDC000076540000#64) } := by decide

/-- V24 -/
theorem test_andn_inverts_b : shown (exec .andn (ports .andn (pair 0x123456789ABCDEF#64 0xFEDCBA9876543210#64) (pair 0xF0F0F0F0F0F0F0F#64 0xFFFF0000FFFF0000#64) 1#1 3#64)) = some { Outputs.zero with r := (pair 0x20406080A0C0E0#64 0xBA9800003210#64) } := by decide

/-- V25 -/
theorem test_andn_operands_swapped : shown (exec .andn (ports .andn (pair 0xF0F0F0F0F0F0F0F#64 0xFFFF0000FFFF0000#64) (pair 0x123456789ABCDEF#64 0xFEDCBA9876543210#64) 1#1 3#64)) = some { Outputs.zero with r := (pair 0xE0C0A0806040200#64 0x123000089AB0000#64) } := by decide

/-- V29 -/
theorem test_or_patterns : shown (exec .or (ports .or (pair 0x123456789ABCDEF#64 0xFEDCBA9876543210#64) (pair 0xF0F0F0F0F0F0F0F#64 0xFFFF0000FFFF0000#64) 1#1 3#64)) = some { Outputs.zero with r := (pair 0xF2F4F6F8FAFCFEF#64 0xFFFFBA98FFFF3210#64) } := by decide

/-- V34 -/
theorem test_xor_patterns : shown (exec .xor (ports .xor (pair 0x123456789ABCDEF#64 0xFEDCBA9876543210#64) (pair 0xF0F0F0F0F0F0F0F#64 0xFFFF0000FFFF0000#64) 1#1 3#64)) = some { Outputs.zero with r := (pair 0xE2C4A6886A4C2E0#64 0x123BA9889AB3210#64) } := by decide

/-- V42 -/
theorem test_not_low_byte : shown (exec .not (ports .not (pair 0x0#64 0xFF#64) (pair 0x5#64 0x6#64) 1#1 3#64)) = some { Outputs.zero with r := (pair 0xFFFFFFFFFFFFFFFF#64 0xFFFFFFFFFFFFFF00#64) } := by decide

/-- V46 -/
theorem test_shl_across_halves : shown (exec .shl (ports .shl (pair 0x123456789ABCDEF#64 0xFEDCBA9876543210#64) (pair 0x5#64 0x6#64) 1#1 63#64)) = some { Outputs.zero with r := (pair 0xFF6E5D4C3B2A1908#64 0x0#64) } := by decide

/-- V54 -/
theorem test_shl_largest_amount : shown (exec .shl (ports .shl (pair 0x123456789ABCDEF#64 0xFEDCBA9876543210#64) (pair 0x5#64 0x6#64) 1#1 18446744073709551615#64)) = some { Outputs.zero with r := (pair 0x0#64 0x0#64) } := by decide

/-- V64 -/
theorem test_shr_across_halves : shown (exec .shr (ports .shr (pair 0x123456789ABCDEF#64 0xFEDCBA9876543210#64) (pair 0x5#64 0x6#64) 1#1 4#64)) = some { Outputs.zero with r := (pair 0x123456789ABCDE#64 0xFFEDCBA987654321#64) } := by decide

/-- V79 -/
theorem test_shr_127_keeps_top_bit : shown (exec .shr (ports .shr (pair 0x8000000000000000#64 0x0#64) (pair 0x5#64 0x6#64) 1#1 127#64)) = some { Outputs.zero with r := (pair 0x0#64 0x1#64) } := by decide

/-- V99: lo(a) + lo(b) = 2^64 - 1 with cin = 1 -/
theorem test_addc_carry_in_makes_low_carry : shown (exec .addc (ports .addc (pair 0xFFFFFFFFFFFFFFFF#64 0xFFFFFFFFFFFFFFFE#64) (pair 0x0#64 0x1#64) 1#1 3#64)) = some { Outputs.zero with r := (pair 0x0#64 0x0#64), cout := 1#1 } := by decide

/-- V101 -/
theorem test_addc_no_carry : shown (exec .addc (ports .addc (pair 0x123456789ABCDEF#64 0xFEDCBA9876543210#64) (pair 0xF0F0F0F0F0F0F0F#64 0xFFFF0000FFFF0000#64) 1#1 3#64)) = some { Outputs.zero with r := (pair 0x1032547698BADCFF#64 0xFEDBBA9976533211#64) } := by decide

/-- V102, S1 -/
theorem test_add_carry_crosses : shown (exec .add (ports .add (pair 0x0#64 0x1#64) (pair 0x0#64 0xFFFFFFFFFFFFFFFF#64) 1#1 3#64)) = some { Outputs.zero with r := (pair 0x1#64 0x0#64) } := by decide

/-- V103 -/
theorem test_add_wraps_no_carry_out : shown (exec .add (ports .add (pair 0xFFFFFFFFFFFFFFFF#64 0xFFFFFFFFFFFFFFFF#64) (pair 0x0#64 0x1#64) 1#1 3#64)) = some { Outputs.zero with r := (pair 0x0#64 0x0#64) } := by decide

/-- V118, S10 -/
theorem test_inc_max_wraps : shown (exec .inc (ports .inc (pair 0xFFFFFFFFFFFFFFFF#64 0xFFFFFFFFFFFFFFFF#64) (pair 0x5#64 0x6#64) 1#1 3#64)) = some { Outputs.zero with r := (pair 0x0#64 0x0#64) } := by decide

/-- V117 -/
theorem test_inc_low_all_ones : shown (exec .inc (ports .inc (pair 0x0#64 0xFFFFFFFFFFFFFFFF#64) (pair 0x5#64 0x6#64) 1#1 3#64)) = some { Outputs.zero with r := (pair 0x1#64 0x0#64) } := by decide

/-- V111 -/
theorem test_sub_borrow_crosses : shown (exec .sub (ports .sub (pair 0x5#64 0x7#64) (pair 0x2#64 0x8#64) 1#1 3#64)) = some { Outputs.zero with r := (pair 0x2#64 0xFFFFFFFFFFFFFFFF#64) } := by decide

/-- V107, S2 -/
theorem test_sub_underflow_wraps : shown (exec .sub (ports .sub (pair 0x0#64 0x0#64) (pair 0x0#64 0x1#64) 1#1 3#64)) = some { Outputs.zero with r := (pair 0xFFFFFFFFFFFFFFFF#64 0xFFFFFFFFFFFFFFFF#64) } := by decide

/-- V121 -/
theorem test_dec_borrow_crosses : shown (exec .dec (ports .dec (pair 0x1#64 0x0#64) (pair 0x5#64 0x6#64) 1#1 3#64)) = some { Outputs.zero with r := (pair 0x0#64 0xFFFFFFFFFFFFFFFF#64) } := by decide

/-- V120, S11 -/
theorem test_dec_zero_wraps : shown (exec .dec (ports .dec (pair 0x0#64 0x0#64) (pair 0x5#64 0x6#64) 1#1 3#64)) = some { Outputs.zero with r := (pair 0xFFFFFFFFFFFFFFFF#64 0xFFFFFFFFFFFFFFFF#64) } := by decide

/-- V129, S6 -/
theorem test_blen_high : shown (exec .blen (ports .blen (pair 0x1#64 0x0#64) (pair 0x5#64 0x6#64) 1#1 3#64)) = some { Outputs.zero with cnt := 65#8 } := by decide

/-- V132 -/
theorem test_blen_max : shown (exec .blen (ports .blen (pair 0xFFFFFFFFFFFFFFFF#64 0xFFFFFFFFFFFFFFFF#64) (pair 0x5#64 0x6#64) 1#1 3#64)) = some { Outputs.zero with cnt := 128#8 } := by decide

/-- V124, S7 -/
theorem test_clz_zero : shown (exec .clz (ports .clz (pair 0x0#64 0x0#64) (pair 0x5#64 0x6#64) 1#1 3#64)) = some { Outputs.zero with cnt := 128#8 } := by decide

/-- V133 -/
theorem test_clz_pattern : shown (exec .clz (ports .clz (pair 0x123456789ABCDEF#64 0xFEDCBA9876543210#64) (pair 0x5#64 0x6#64) 1#1 3#64)) = some { Outputs.zero with cnt := 7#8 } := by decide

/-- V124, S8 -/
theorem test_ctz_zero : shown (exec .ctz (ports .ctz (pair 0x0#64 0x0#64) (pair 0x5#64 0x6#64) 1#1 3#64)) = some { Outputs.zero with cnt := 128#8 } := by decide

/-- V131 -/
theorem test_ctz_top_bit : shown (exec .ctz (ports .ctz (pair 0x8000000000000000#64 0x0#64) (pair 0x5#64 0x6#64) 1#1 3#64)) = some { Outputs.zero with cnt := 127#8 } := by decide

/-- V132, S9 -/
theorem test_popc_max : shown (exec .popc (ports .popc (pair 0xFFFFFFFFFFFFFFFF#64 0xFFFFFFFFFFFFFFFF#64) (pair 0x5#64 0x6#64) 1#1 3#64)) = some { Outputs.zero with cnt := 128#8 } := by decide

/-- V135 -/
theorem test_popc_halves : shown (exec .popc (ports .popc (pair 0xF#64 0xFF#64) (pair 0x5#64 0x6#64) 1#1 3#64)) = some { Outputs.zero with cnt := 12#8 } := by decide

/-- V141 -/
theorem test_brev_pattern : shown (exec .brev (ports .brev (pair 0x123456789ABCDEF#64 0xFEDCBA9876543210#64) (pair 0x5#64 0x6#64) 1#1 3#64)) = some { Outputs.zero with r := (pair 0x84C2A6E195D3B7F#64 0xF7B3D591E6A2C480#64) } := by decide

/-- V138 -/
theorem test_brev_bit_0 : shown (exec .brev (ports .brev (pair 0x0#64 0x1#64) (pair 0x5#64 0x6#64) 1#1 3#64)) = some { Outputs.zero with r := (pair 0x8000000000000000#64 0x0#64) } := by decide

/-- V142 -/
theorem test_bswap_ramp : shown (exec .bswap (ports .bswap (pair 0x1020304050607#64 0x8090A0B0C0D0E0F#64) (pair 0x5#64 0x6#64) 1#1 3#64)) = some { Outputs.zero with r := (pair 0xF0E0D0C0B0A0908#64 0x706050403020100#64) } := by decide

/-- V140 -/
theorem test_bswap_low_byte : shown (exec .bswap (ports .bswap (pair 0x0#64 0xFF#64) (pair 0x5#64 0x6#64) 1#1 3#64)) = some { Outputs.zero with r := (pair 0xFF00000000000000#64 0x0#64) } := by decide

/-- Ports driven with any select. -/
def rawPorts (op : OpCode) (a b : Uint128) (cin : Bit) (n : ShAmt) : State :=
  { ports .cmp a b cin n with inp := { op := op, a := a, b := b, cin := cin, n := n } }

/-- V144: a reserved code drives `ill` alone. -/
theorem test_reserved_code :
    shown (step (rawPorts 0b01010#5 (~~~0#128) (~~~0#128) 1#1 5#64)) = some { Outputs.zero with ill := 1#1 } := by decide

/-- U8: the host's reading of `cmp`. -/
theorem test_read_cmp : readCmp 0b11#2 = .ok (-1) ∧ readCmp 0b00#2 = .ok 0 ∧ readCmp 0b01#2 = .ok 1 ∧
    readCmp 0b10#2 = .error .cmpPatternNeverDriven := by decide

/-- A host that drives five ports one by one, waits and samples reads the sum (R157). -/
theorem test_host_presents_an_operation :
    let s := ((((State.reset.act (.driveOp 0b10001#5)).act (.driveA 3#128)).act (.driveB 4#128)).act (.driveCin 1#1)).act (.driveN 9#64)
    s.settled = false ∧ (match step s with | .next t => t.sampled.r | _ => 0#128) = 7#128 := by decide

/-! ## Witnesses: states and operands that meet the hypotheses of each obligation -/

/-- The settled ports after ADD of 3 and 4. -/
def settledAdd : State := { ports .add 3#128 4#128 1#1 9#64 with out := { Outputs.zero with r := 7#128 }, settled := true }

/-- Ports on which `n` floats. -/
def floatingN : State := { ports .add 3#128 4#128 1#1 9#64 with driven := { Driven.every with n := false } }

theorem witness_LinePutOnThePortsReadsBack :
    Line.wellFormed ⟨[.r, .cout], .addc, [.pair (2 ^ 64 - 1) 0, .hex (2 ^ 128 - 1), .count 1]⟩ = true ∧
    InPort.n ≠ .op ∧ InPort.n ∉ Instr.addc.reads := by decide
theorem witness_CarryInOtherThanZeroOrOneIsRefused : 2 ≤ 2 := by decide
theorem witness_StepRunsTheDecodedOperation : decode (ports .add 3#128 4#128 0#1 0#64).inp.op = .operation .add := by decide
theorem witness_DrivenSelectIsTheNextOperation : decodeTableWord 8 0b10001 = some .add := by decide
theorem witness_CmpGivesTheSignOfTheDifference :
    let s := ports .cmp 3#128 4#128 0#1 0#64
    s.driven.all = true ∧ s.inp.op = 0b00000#5 ∧ s.inp.a.toNat < s.inp.b.toNat := by decide
theorem witness_IszIsOneExactlyForZero :
    let s := ports .isz 0#128 4#128 0#1 0#64
    s.driven.all = true ∧ s.inp.op = 0b00001#5 ∧ s.inp.a = 0#128 := by decide
theorem witness_LogicUnitActsOnTheWholeVectors :
    ∀ i ∈ [Instr.and, .andn, .or, .xor, .not], (ports i 3#128 4#128 0#1 0#64).driven.all = true := by decide
theorem witness_logic_selects :
    (ports .and 0#128 0#128 0#1 0#64).inp.op = 0b00010#5 ∧ (ports .andn 0#128 0#128 0#1 0#64).inp.op = 0b00011#5 ∧
    (ports .or 0#128 0#128 0#1 0#64).inp.op = 0b00100#5 ∧ (ports .xor 0#128 0#128 0#1 0#64).inp.op = 0b00101#5 ∧
    (ports .not 0#128 0#128 0#1 0#64).inp.op = 0b00110#5 := by decide
theorem witness_ShiftsMultiplyAndDivideByPowersOfTwo :
    (ports .shl 3#128 0#128 0#1 127#64).driven.all = true ∧ (ports .shl 3#128 0#128 0#1 127#64).inp.op = 0b01000#5 ∧
    (ports .shr 3#128 0#128 0#1 128#64).driven.all = true ∧ (ports .shr 3#128 0#128 0#1 128#64).inp.op = 0b01001#5 := by decide
theorem witness_AddcAddIncGiveTheSum :
    (ports .addc (~~~0#128) 0#128 1#1 0#64).driven.all = true ∧ (ports .addc 0#128 0#128 1#1 0#64).inp.op = 0b10000#5 ∧
    (ports .add 0#128 0#128 1#1 0#64).inp.op = 0b10001#5 ∧ (ports .inc 0#128 0#128 1#1 0#64).inp.op = 0b10010#5 := by decide
theorem witness_SubDecGiveTheDifference :
    (ports .sub 0#128 1#128 1#1 0#64).driven.all = true ∧ (ports .sub 0#128 1#128 1#1 0#64).inp.op = 0b10011#5 ∧
    (ports .dec 0#128 0#128 1#1 0#64).inp.op = 0b10100#5 := by decide
theorem witness_BlenCtzPopcCountTheBits :
    (ports .blen 0#128 1#128 1#1 0#64).driven.all = true ∧ (ports .blen 0#128 1#128 1#1 0#64).inp.op = 0b11000#5 ∧
    (ports .blen 1#128 1#128 1#1 0#64).driven.all = true ∧ (ports .blen 1#128 1#128 1#1 0#64).inp.a ≠ 0#128 ∧
    (ports .ctz 0#128 0#128 1#1 0#64).inp.op = 0b11010#5 ∧ (ports .popc 0#128 0#128 1#1 0#64).inp.op = 0b11011#5 := by decide
theorem witness_ClzIs128LessTheBitLength :
    let s := ports .clz 0#128 1#128 1#1 0#64
    s.driven.all = true ∧ s.inp.op = 0b11001#5 ∧ s.inp.a = 0#128 := by decide
theorem witness_BrevBswapReverseByIndex :
    (ports .brev 1#128 1#128 1#1 0#64).driven.all = true ∧ (ports .brev 1#128 1#128 1#1 0#64).inp.op = 0b11100#5 ∧
    (ports .bswap 1#128 0#128 1#1 0#64).inp.op = 0b11101#5 := by decide
theorem witness_ReservedCodesDriveIllAlone :
    (rawPorts 0b11111#5 1#128 2#128 1#1 5#64).driven.all = true ∧ (rawPorts 0b11111#5 1#128 2#128 1#1 5#64).inp.op = 0b11111#5 ∧
    (ports .bswap 1#128 2#128 1#1 5#64).driven.all = true ∧ (ports .bswap 1#128 2#128 1#1 5#64).inp.op = encode .bswap ∧
    (shown (step (ports .bswap 1#128 2#128 1#1 5#64))).isSome = true := by decide
theorem witness_AssignedAfterReservedIsUnaffected :
    decode (rawPorts 0b00111#5 1#128 2#128 1#1 5#64).inp.op = .reserved ∧
    (shown (step (rawPorts 0b00111#5 1#128 2#128 1#1 5#64))).isSome = true ∧
    (ports .add 1#128 2#128 1#1 5#64).inp.op = encode .add := by decide
theorem witness_FloatingInputLeavesOutputsUnspecified : floatingN.driven.all = false := by decide
theorem witness_ChangedInputUnsettlesTheOutputs :
    (settledAdd.act (.driveA 5#128)).inp ≠ settledAdd.inp ∧ (settledAdd.act (.release .n)).driven ≠ settledAdd.driven := by decide
theorem witness_NoOperationWritesAnInput :
    (shown (exec .add settledAdd)).isSome = true ∧ (shown (step settledAdd)).isSome = true := by decide
theorem witness_OutputsAreAFunctionOfTheInputs :
    settledAdd.driven.all = true ∧ (ports .add 3#128 4#128 1#1 9#64).driven.all = true ∧
    (ports .add 3#128 4#128 1#1 9#64).inp = settledAdd.inp ∧ (ports .add 3#128 4#128 1#1 9#64).out ≠ settledAdd.out := by decide
theorem witness_UnreadInputsHaveNoEffect :
    let s := ports .not 3#128 4#128 1#1 9#64
    let u := ports .not 3#128 8#128 0#1 7#64
    s.driven.all = true ∧ u.driven.all = true ∧ (∀ p ∈ Instr.not.reads, samePort s.inp u.inp p = true) ∧
      s.inp ≠ u.inp := by decide
theorem witness_OutputsNotDrivenAreZero : settledAdd.driven.all = true ∧ OutPort.cout ∉ Instr.add.drives := by decide
theorem witness_StatusOutputsComeFromTheirOwnOperation :
    (ports .addc (~~~0#128) 0#128 1#1 0#64).driven.all = true ∧ (ports .cmp 1#128 0#128 1#1 0#64).driven.all = true := by decide
theorem witness_CmpIsTwosComplementAndNeverTwo :
    (ports .cmp 1#128 2#128 1#1 0#64).driven.all = true ∧ (ports .cmp 1#128 2#128 1#1 0#64).inp.op = encode .cmp ∧
    (1#128 : Uint128) < 2#128 := by decide
theorem witness_CountsAreAtMost128 :
    (ports .popc (~~~0#128) 2#128 1#1 0#64).driven.all = true ∧
    (shown (step (ports .popc (~~~0#128) 2#128 1#1 0#64))).map (fun o => o.cnt.getLsbD 7) = some true := by decide
theorem witness_SettledOutputsStayWhileInputsAreHeld : settledAdd.driven.all = true := by decide
theorem witness_OutputsOfIsWhatEveryStateShows : settledAdd.driven.all = true := by decide
theorem witness_CopiesOfTheBlockDoNotInteract :
    [settledAdd, floatingN][1]? = some floatingN ∧ (0 : Nat) ≠ 1 := by decide
theorem witness_CompareIsAStrictTotalOrder :
    (outputsOf .cmp 1#128 2#128 0#1 0#64).cmp = 0b11#2 ∧ (outputsOf .cmp 2#128 3#128 0#1 0#64).cmp = 0b11#2 := by decide
theorem witness_ShiftBackClearsTheLowBits : (127#64).toNat < 128 := by decide
theorem witness_LargeShiftAmountsGiveZero : 128 ≤ (128#64).toNat ∧ 128 ≤ (0xFFFFFFFFFFFFFFFF#64).toNat := by decide
theorem witness_RotationIsComposedFromShifts :
    (1 ≤ (1#64).toNat ∧ (1#64).toNat ≤ 127 ∧ (127#64).toNat = 128 - (1#64).toNat) ∧
    (1 ≤ (127#64).toNat ∧ (127#64).toNat ≤ 127 ∧ (1#64).toNat = 128 - (127#64).toNat) := by decide
theorem witness_ReversalExchangesTheZeroCounts : (1#128 : Uint128) ≠ 0#128 := by decide

/-- Settled ports that meet the invariant other than by not being settled. -/
theorem witness_invariant_of_settled_ports : settledAdd.Inv := by
  intro _
  refine ⟨by decide, ?_⟩
  show MeetsRules { op := 0b10001#5, a := 3#128, b := 4#128, cin := 1#1, n := 9#64 } { Outputs.zero with r := 7#128 }
  exact ⟨⟨rfl, rfl, rfl, rfl, rfl⟩, rfl⟩
theorem witness_EveryStepKeepsTheInvariant : settledAdd.Inv ∧ (shown (step settledAdd)).isSome = true ∧ settledAdd.driven.all = true :=
  ⟨witness_invariant_of_settled_ports, by decide, by decide⟩
theorem witness_EveryRunKeepsTheInvariant : settledAdd.Inv := witness_invariant_of_settled_ports
/-- A safe run with a sampling in it: change an operand, wait, sample. -/
theorem witness_SafeRunsReadWhatTheRulesGive :
    settledAdd.Inv ∧ safeRun settledAdd [.host (.driveA 5#128), .wait, .host .sample] = true ∧
    (samples settledAdd [.host (.driveA 5#128), .wait, .host .sample]).map (fun x => x.2.r) = [9#128] :=
  ⟨witness_invariant_of_settled_ports, by decide, by decide⟩
/-- A run that samples early is not safe (R160). -/
theorem test_early_sampling_is_not_safe : safeRun settledAdd [.host (.driveA 5#128), .host .sample] = false := by decide

end Sys2Proof.Tests
end

section
/-! The state family (10_state.md): what a step and an operation show, as one function of the inputs, and the obligations about
the ports, the invariant and the runs. -/

namespace Sys2Proof.Machine

/-! ## The select: decoding and encoding agree -/

@[simp] theorem decode_encode (i : Instr) : decode (encode i) = .operation i := by cases i <;> rfl

/-- Each of the 32 codes is reserved or the select of the operation it decodes to. -/
theorem decode_cases (op : OpCode) : decode op = .reserved ∨ ∃ i, op = encode i := by
  have table : ∀ op : OpCode, (match decode op with
      | .operation i => op == encode i
      | .reserved => true) = true := by decide
  have hop := table op
  cases hd : decode op with
  | operation i => rw [hd] at hop; exact .inr ⟨i, eq_of_beq hop⟩
  | reserved => exact .inl rfl

/-! ## The function of the block: `CORE(op, a, b, cin, n)` of R31 -/

/-- The outputs as a function of the input levels alone (R31): the selected operation's, or ILLEGAL_OP's (R142). -/
def coreOutputs (p : Inputs) : Outputs :=
  match decode p.op with
  | .operation i => operate i p
  | .reserved => illegalOutputs

theorem coreOutputs_of_operation {p : Inputs} {i : Instr} (h : p.op = encode i) : coreOutputs p = operate i p := by
  rw [coreOutputs, h, decode_encode]

theorem coreOutputs_of_reserved {p : Inputs} (h : decode p.op = .reserved) : coreOutputs p = illegalOutputs := by
  rw [coreOutputs, h]

/-- A step evaluates that function on the held inputs. -/
theorem step_eq_evaluate (s : State) : step s = evaluate s coreOutputs := by
  obtain h | ⟨i, h⟩ := decode_cases s.inp.op
  · rw [step, h]
    simp only [takeIllegalOp, evaluate, coreOutputs_of_reserved h]
  · rw [step, h, decode_encode]
    simp only [exec_eq_evaluate, evaluate, coreOutputs_of_operation h]

theorem step_of_driven {s : State} (h : s.driven.all = true) : step s = .next (s.shows (coreOutputs s.inp)) := by
  rw [step_eq_evaluate, evaluate_of_driven h]

theorem exec_of_driven {s : State} (h : s.driven.all = true) (i : Instr) :
    exec i s = .next (s.shows (operate i s.inp)) := by
  rw [exec_eq_evaluate, evaluate_of_driven h]

/-- A step answers a next state: the outputs of the held inputs, or with an input floating a fresh draw. -/
theorem step_cases (s : State) :
    (s.driven.all = true ∧ step s = .next (s.shows (coreOutputs s.inp))) ∨
      (s.driven.all = false ∧ step s = .next s.redraw) := by
  rw [step_eq_evaluate]; exact evaluate_cases s coreOutputs

/-- An evaluation writes neither the input levels nor what drives them (R35). -/
theorem evaluate_frame {s t : State} {f : Inputs → Outputs} (h : evaluate s f = .next t) :
    t.inp = s.inp ∧ t.driven = s.driven := by
  obtain ⟨-, he⟩ | ⟨-, he⟩ := evaluate_cases s f <;>
    (rw [he] at h; cases h; exact ⟨rfl, rfl⟩)

/-! ## What an operation reads -/

/-- An operation's outputs depend on the ports it reads alone (R42). -/
theorem operate_congr_reads {i : Instr} {p q : Inputs} (h : ∀ port ∈ i.reads, samePort p q port = true) :
    operate i p = operate i q := by
  cases i with
  | cmp | and | andn | or | xor | add | sub =>
    obtain ⟨ha, hb⟩ : p.a = q.a ∧ p.b = q.b := by simpa [Instr.reads, samePort] using h
    simp only [operate, ha, hb]
  | shl | shr =>
    obtain ⟨ha, hn⟩ : p.a = q.a ∧ p.n = q.n := by simpa [Instr.reads, samePort] using h
    simp only [operate, shiftAmount, ha, hn]
  | addc =>
    obtain ⟨ha, hb, hc⟩ : p.a = q.a ∧ p.b = q.b ∧ p.cin = q.cin := by simpa [Instr.reads, samePort] using h
    simp only [operate, carryIn, ha, hb, hc]
  | isz | not | inc | dec | blen | clz | ctz | popc | brev | bswap =>
    have ha : p.a = q.a := by simpa [Instr.reads, samePort] using h
    simp only [operate, ha]

/-- No operation reads the select as an operand. -/
theorem operate_op (i : Instr) (p : Inputs) (op : OpCode) : operate i { p with op := op } = operate i p := by
  cases i <;> rfl

/-- What the host reads for an operation after power-up is the operation's function of the operands. -/
theorem outputsOf_eq_operate (i : Instr) (a b : Uint128) (cin : Bit) (n : ShAmt) :
    outputsOf i a b cin n = operate i { op := encode i, a := a, b := b, cin := cin, n := n } := by
  rw [outputsOf, step_of_driven (by simp), drive_inp, coreOutputs_of_operation rfl]
  simp only [State.sampled, sample_of_settled (State.shows_settled _ _), State.shows_out]

/-! ## What an operation drives -/

theorem onlyR_zeroAt (v : Uint128) {port : OutPort} (h : port ≠ .r) : (onlyR v).zeroAt port := by
  cases port with
  | r => exact absurd rfl h
  | cout | cmp | cnt | zf | ill => rfl

theorem onlyCnt_zeroAt (c : Nat) {port : OutPort} (h : port ≠ .cnt) : (onlyCnt c).zeroAt port := by
  cases port with
  | cnt => exact absurd rfl h
  | r | cout | cmp | zf | ill => rfl

/-- An output that an operation does not drive is all zeros (R39). -/
theorem operate_zeroAt {i : Instr} {port : OutPort} (h : port ∉ i.drives) (p : Inputs) :
    (operate i p).zeroAt port := by
  cases i with
  | cmp =>
    cases port with
    | cmp => exact absurd (by decide) h
    | r | cout | cnt | zf | ill => rfl
  | isz =>
    cases port with
    | zf => exact absurd (by decide) h
    | r | cout | cmp | cnt | ill => rfl
  | addc =>
    cases port with
    | r | cout => exact absurd (by decide) h
    | cmp | cnt | zf | ill => rfl
  | blen | clz | ctz | popc => exact onlyCnt_zeroAt _ (by simpa [Instr.drives] using h)
  | and | andn | or | xor | not | shl | shr | add | inc | sub | dec | brev | bswap =>
    exact onlyR_zeroAt _ (by simpa [Instr.drives] using h)

theorem cout_mem_drives {i : Instr} : OutPort.cout ∈ i.drives ↔ i = .addc := by cases i <;> decide
theorem cmp_mem_drives {i : Instr} : OutPort.cmp ∈ i.drives ↔ i = .cmp := by cases i <;> decide
theorem zf_mem_drives {i : Instr} : OutPort.zf ∈ i.drives ↔ i = .isz := by cases i <;> decide
theorem ill_not_mem_drives (i : Instr) : OutPort.ill ∉ i.drives := by cases i <;> decide
theorem cnt_mem_drives {i : Instr} : OutPort.cnt ∈ i.drives ↔ i ∈ [Instr.blen, .clz, .ctz, .popc] := by
  cases i <;> decide
theorem r_mem_drives {i : Instr} : OutPort.r ∈ i.drives ↔
    i ∈ [Instr.and, .andn, .or, .xor, .not, .shl, .shr, .addc, .add, .inc, .sub, .dec, .brev, .bswap] := by
  cases i <;> decide

/-- An output other than `ill` is all zeros when no operation that drives it is selected (R39, R142). -/
theorem coreOutputs_zeroAt {port : OutPort} (hill : port ≠ .ill) {p : Inputs}
    (h : ∀ i, port ∈ i.drives → p.op ≠ encode i) : (coreOutputs p).zeroAt port := by
  obtain hr | ⟨i, hi⟩ := decode_cases p.op
  · rw [coreOutputs_of_reserved hr]
    cases port with
    | ill => exact absurd rfl hill
    | r | cout | cmp | cnt | zf => rfl
  · rw [coreOutputs_of_operation hi]
    exact operate_zeroAt (fun hmem => h i hmem hi) p

/-! ## Value forms of the single outputs -/

/-- R40 with R83: the pattern that CMP drives. -/
theorem cmpCode_compare128 (x y : Uint128) : cmpCode (compare128 x y) =
    if y.toNat < x.toNat then 0b01#2 else if x.toNat < y.toNat then 0b11#2 else 0b00#2 := by
  rw [compare128_spec]
  split_ifs <;> rfl

/-- R116: the carry-out is that of the exact sum. -/
theorem addc128_carry_iff (x y : Uint128) (c : Bit) :
    (addc128 x y c).2 = 1#1 ↔ 2 ^ 128 ≤ x.toNat + y.toNat + c.toNat := by
  have hsum := addc128_value x y c
  have hr := (addc128 x y c).1.isLt
  have hc := (addc128 x y c).2.isLt
  rw [← BitVec.toNat_inj, BitVec.toNat_ofNat]
  omega

/-- R117 over the integers. -/
theorem sub128_toInt (x y : Uint128) : ((sub128 x y).toNat : Int) = ((x.toNat : Int) - y.toNat) % 2 ^ 128 := by
  have hx := x.isLt; have hy := y.isLt
  rw [sub128_toNat]; omega

theorem addc128_one_toNat (x : Uint128) : (addc128 x one128 0#1).1.toNat = (x.toNat + 1) % 2 ^ 128 := by
  simpa [one128_toNat] using addc128_toNat x one128 0#1

theorem sub128_one_toInt (x : Uint128) : ((sub128 x one128).toNat : Int) = ((x.toNat : Int) - 1) % 2 ^ 128 := by
  simpa [one128_toNat] using sub128_toInt x one128

/-- `bv_8` loses nothing of a count (R41). -/
theorem onlyCnt_cnt_toNat {c : Nat} (h : c ≤ 128) : (onlyCnt c).cnt.toNat = c := by
  rw [onlyCnt_cnt, BitVec.toNat_ofNat]; omega

theorem leadingZeros128_le (x : Uint128) : leadingZeros128 x ≤ 128 := Nat.sub_le _ _

theorem leadingZeros128_add_bitLength128 (x : Uint128) : leadingZeros128 x + bitLength128 x = 128 :=
  Nat.sub_add_cancel (bitLength128_le x)

/-- R41 for one operation. -/
theorem operate_cnt_le (i : Instr) (p : Inputs) : (operate i p).cnt.toNat ≤ 128 := by
  by_cases h : OutPort.cnt ∈ i.drives
  · have count {c : Nat} (hc : c ≤ 128) : (onlyCnt c).cnt.toNat ≤ 128 := (onlyCnt_cnt_toNat hc).trans_le hc
    have hi := cnt_mem_drives.1 h
    simp only [List.mem_cons, List.not_mem_nil, or_false] at hi
    obtain rfl | rfl | rfl | rfl := hi
    · exact count (bitLength128_le p.a)
    · exact count (leadingZeros128_le p.a)
    · exact count (trailingZeros128_le p.a)
    · exact count (onesCount128_le p.a)
  · have hzero : (operate i p).cnt = 0#8 := operate_zeroAt h p
    rw [hzero]; decide

theorem coreOutputs_cnt_le (p : Inputs) : (coreOutputs p).cnt.toNat ≤ 128 := by
  obtain hr | ⟨i, hi⟩ := decode_cases p.op
  · rw [coreOutputs_of_reserved hr]; decide
  · rw [coreOutputs_of_operation hi]; exact operate_cnt_le i p

/-! ## The status outputs of a step (R43) -/

theorem coreOutputs_cout_iff (p : Inputs) : (coreOutputs p).cout = 1#1 ↔
    p.op = encode .addc ∧ 2 ^ 128 ≤ p.a.toNat + p.b.toNat + p.cin.toNat := by
  by_cases h : p.op = encode .addc
  · rw [coreOutputs_of_operation h, and_iff_right h]
    exact addc128_carry_iff p.a p.b p.cin
  · have hzero : (coreOutputs p).cout = 0#1 :=
      coreOutputs_zeroAt (port := .cout) (by decide) fun i hi => by rwa [cout_mem_drives.1 hi]
    simp [hzero, h]

theorem coreOutputs_zf_iff (p : Inputs) : (coreOutputs p).zf = 1#1 ↔ p.op = encode .isz ∧ p.a = 0#128 := by
  by_cases h : p.op = encode .isz
  · rw [coreOutputs_of_operation h, and_iff_right h, ← BitVec.toNat_inj (x := p.a)]
    show zeroFlag p.a = 1#1 ↔ _
    rw [zeroFlag_spec]
    split_ifs with hz <;> simp [hz]
  · have hzero : (coreOutputs p).zf = 0#1 :=
      coreOutputs_zeroAt (port := .zf) (by decide) fun i hi => by rwa [zf_mem_drives.1 hi]
    simp [hzero, h]

theorem coreOutputs_cmp_of_not_cmp {p : Inputs} (h : p.op ≠ encode .cmp) : (coreOutputs p).cmp = 0b00#2 :=
  coreOutputs_zeroAt (port := .cmp) (by decide) fun i hi => by rwa [cmp_mem_drives.1 hi]

theorem coreOutputs_cmp_of_cmp {p : Inputs} (h : p.op = encode .cmp) : (coreOutputs p).cmp =
    if p.b.toNat < p.a.toNat then 0b01#2 else if p.a.toNat < p.b.toNat then 0b11#2 else 0b00#2 := by
  rw [coreOutputs_of_operation h]; exact cmpCode_compare128 p.a p.b

theorem coreOutputs_cmp_ne_zero_iff (p : Inputs) :
    (coreOutputs p).cmp ≠ 0b00#2 ↔ p.op = encode .cmp ∧ p.a ≠ p.b := by
  by_cases h : p.op = encode .cmp
  · rw [coreOutputs_cmp_of_cmp h, and_iff_right h, Ne, Ne, ← BitVec.toNat_inj (x := p.a)]
    split_ifs <;> simp <;> omega
  · simp [coreOutputs_cmp_of_not_cmp h, h]

/-- The pattern `0b10` is never driven (R40). -/
theorem coreOutputs_cmp_ne_two (p : Inputs) : (coreOutputs p).cmp ≠ 0b10#2 := by
  by_cases h : p.op = encode .cmp
  · rw [coreOutputs_cmp_of_cmp h]; split_ifs <;> decide
  · rw [coreOutputs_cmp_of_not_cmp h]; decide

theorem coreOutputs_ill_iff (p : Inputs) : (coreOutputs p).ill = 1#1 ↔ decode p.op = .reserved := by
  obtain hr | ⟨i, hi⟩ := decode_cases p.op
  · rw [coreOutputs_of_reserved hr]; exact iff_of_true rfl hr
  · have hzero : (operate i p).ill = 0#1 := operate_zeroAt (ill_not_mem_drives i) p
    simp [coreOutputs_of_operation hi, hzero, hi]

/-! ## The rules' value forms hold of what every step shows -/

theorem onlyR_drivesR (v : Uint128) : (onlyR v).drivesR := ⟨rfl, rfl, rfl, rfl, rfl⟩

theorem onlyCnt_drivesCnt (c : Nat) : (onlyCnt c).drivesCnt := ⟨rfl, rfl, rfl, rfl, rfl⟩

/-- Each operation gives what its rule says: R83, R82, R91 to R95, R103, R116, R117, R127, R132, R133. -/
theorem operate_meetsRules {i : Instr} {p : Inputs} (h : p.op = encode i) : MeetsRules p (operate i p) := by
  rw [MeetsRules, h, decode_encode]
  cases i with
  | cmp => exact congrArg (fun c => { Outputs.zero with cmp := c }) (cmpCode_compare128 p.a p.b)
  | isz => exact congrArg (fun z => { Outputs.zero with zf := z }) (zeroFlag_spec p.a)
  | and => exact congrArg onlyR (and128_spec p.a p.b)
  | andn => exact congrArg onlyR (andn128_spec p.a p.b)
  | or => exact congrArg onlyR (or128_spec p.a p.b)
  | xor => exact congrArg onlyR (xor128_spec p.a p.b)
  | not => exact congrArg onlyR (not128_spec p.a)
  | shl => exact ⟨onlyR_drivesR _, shl128_toNat p.a p.n.toNat⟩
  | shr => exact ⟨onlyR_drivesR _, shr128_toNat p.a p.n.toNat⟩
  | addc => exact ⟨rfl, addc128_value p.a p.b p.cin⟩
  | add => exact ⟨onlyR_drivesR _, addc128_toNat p.a p.b 0#1⟩
  | inc => exact ⟨onlyR_drivesR _, addc128_one_toNat p.a⟩
  | sub => exact ⟨onlyR_drivesR _, sub128_toInt p.a p.b⟩
  | dec => exact ⟨onlyR_drivesR _, sub128_one_toInt p.a⟩
  | blen =>
    refine ⟨onlyCnt_drivesCnt _, ?_⟩
    show IsBitLength p.a (onlyCnt (bitLength128 p.a)).cnt.toNat
    rw [onlyCnt_cnt_toNat (bitLength128_le p.a)]
    exact bitLength128_spec p.a
  | clz =>
    refine ⟨onlyCnt_drivesCnt _, bitLength128 p.a, bitLength128_spec p.a, ?_⟩
    show (onlyCnt (leadingZeros128 p.a)).cnt.toNat + bitLength128 p.a = 128
    rw [onlyCnt_cnt_toNat (leadingZeros128_le p.a), leadingZeros128_add_bitLength128]
  | ctz =>
    refine ⟨onlyCnt_drivesCnt _, ?_⟩
    show IsTrailingZeros p.a (onlyCnt (trailingZeros128 p.a)).cnt.toNat
    rw [onlyCnt_cnt_toNat (trailingZeros128_le p.a)]
    exact trailingZeros128_spec p.a
  | popc =>
    refine ⟨onlyCnt_drivesCnt _, ?_⟩
    show (onlyCnt (onesCount128 p.a)).cnt.toNat = setBits p.a
    rw [onlyCnt_cnt_toNat (onesCount128_le p.a), onesCount128_spec]
  | brev => exact ⟨onlyR_drivesR _, reverseBits128_spec p.a⟩
  | bswap => exact ⟨onlyR_drivesR _, reverseBytes128_spec p.a⟩

theorem coreOutputs_meetsRules (p : Inputs) : MeetsRules p (coreOutputs p) := by
  obtain hr | ⟨i, hi⟩ := decode_cases p.op
  · rw [coreOutputs_of_reserved hr, MeetsRules, hr]; rfl
  · rw [coreOutputs_of_operation hi]; exact operate_meetsRules hi

/-! ## The invariant of the ports and runs -/

/-- A step makes the invariant hold, even from a state that does not meet it: it settles what the rules give, or nothing. -/
theorem step_inv {s t : State} (h : step s = .next t) : t.Inv := by
  obtain ⟨hd, hs⟩ | ⟨-, hs⟩ := step_cases s <;> rw [hs] at h <;> cases h
  · exact fun _ => ⟨hd, coreOutputs_meetsRules s.inp⟩
  · exact fun hset => by simp at hset

theorem step_settled {s t : State} (hd : s.driven.all = true) (h : step s = .next t) : t.settled = true := by
  rw [step_of_driven hd] at h; cases h; rfl

/-- An act of the host keeps the invariant: one that leaves the outputs settled changes nothing (R160). -/
theorem act_inv {s : State} (h : s.Inv) (a : HostAct) : (s.act a).Inv := by
  intro hset
  have hsame := act_settled hset
  rw [hsame] at hset ⊢
  exact h hset

theorem step_total (s : State) : ∃ t, step s = .next t := by
  obtain ⟨-, h⟩ | ⟨-, h⟩ := step_cases s <;> exact ⟨_, h⟩

theorem runEvents_wait {s t : State} (h : step s = .next t) (es : List Event) :
    runEvents s (.wait :: es) = runEvents t es := by
  rw [runEvents, h]

/-! ## The obligations -/

/-- Settles O46: a step shows nothing settled, or the block's function of driven inputs, which meets the rules. -/
theorem everyStepKeepsTheInvariant : Obligations.EveryStepKeepsTheInvariant :=
  fun _ _ _ h => ⟨step_inv h, fun hd => step_settled hd h⟩

/-- Settles O47, by induction on the events: acts keep the invariant, and a step always answers a next state that meets it. -/
theorem everyRunKeepsTheInvariant : Obligations.EveryRunKeepsTheInvariant := by
  intro es
  induction es with
  | nil => exact fun s hs => ⟨s, rfl, hs⟩
  | cons e es ih =>
    intro s hs
    cases e with
    | host a => exact ih (s.act a) (act_inv hs a)
    | wait =>
      obtain ⟨t, ht⟩ := step_total s
      rw [runEvents_wait ht]
      exact ih t (step_inv ht)

/-- Settles O23: both steps show the block's function of the same inputs. -/
theorem outputsAreAFunctionOfTheInputs : Obligations.OutputsAreAFunctionOfTheInputs := by
  intro s u hs hu hinp
  exact ⟨_, _, step_of_driven hs, step_of_driven hu, by simp [hinp], rfl, rfl⟩

/-- Settles O24: an operation's function depends on the ports it reads alone. -/
theorem unreadInputsHaveNoEffect : Obligations.UnreadInputsHaveNoEffect := by
  intro i s u hs hu hreads
  exact ⟨_, _, exec_of_driven hs i, exec_of_driven hu i, operate_congr_reads hreads⟩

/-- Settles O25: R39's table of driven outputs, and zero at every other output. -/
theorem outputsNotDrivenAreZero : Obligations.OutputsNotDrivenAreZero := by
  refine ⟨fun i => ?_, fun i s hs => ?_⟩
  · exact ⟨r_mem_drives, cout_mem_drives, cmp_mem_drives, cnt_mem_drives, zf_mem_drives, ill_not_mem_drives i⟩
  · exact ⟨_, exec_of_driven hs i, fun _ hport => operate_zeroAt hport s.inp⟩

/-- Settles O26: each status output of the block's function, by its own operation. -/
theorem statusOutputsComeFromTheirOwnOperation : Obligations.StatusOutputsComeFromTheirOwnOperation := by
  intro s hs
  exact ⟨_, step_of_driven hs, coreOutputs_cout_iff s.inp, coreOutputs_zf_iff s.inp, coreOutputs_cmp_ne_zero_iff s.inp,
    coreOutputs_ill_iff s.inp⟩

/-- Settles O27: the pattern CMP drives in each of the three orders, and zero for every other select. -/
theorem cmpIsTwosComplementAndNeverTwo : Obligations.CmpIsTwosComplementAndNeverTwo := by
  intro s hs
  refine ⟨_, step_of_driven hs, coreOutputs_cmp_ne_two s.inp, fun hop => ?_⟩
  rw [State.shows_out, coreOutputs_cmp_of_cmp hop]
  refine ⟨fun hlt => ?_, fun heq => ?_, fun hgt => ?_⟩
  · rw [if_neg (Nat.lt_asymm hlt), if_pos (BitVec.lt_def.1 hlt)]; exact ⟨rfl, rfl⟩
  · rw [heq, if_neg (Nat.lt_irrefl _), if_neg (Nat.lt_irrefl _)]; exact ⟨rfl, rfl⟩
  · rw [if_pos (BitVec.lt_def.1 hgt)]; exact ⟨rfl, rfl⟩

/-- Settles O28: a count is at most 128, and bit 7 set makes it at least 128. -/
theorem countsAreAtMost128 : Obligations.CountsAreAtMost128 := by
  intro s hs
  have hle := coreOutputs_cnt_le s.inp
  exact ⟨_, step_of_driven hs, hle, fun hbit => Nat.le_antisymm hle (Nat.ge_two_pow_of_testBit hbit)⟩

/-- Settles O30: both are the operation's function of the operands, which reads no select. -/
theorem outputsOfIsWhatEveryStateShows : Obligations.OutputsOfIsWhatEveryStateShows := by
  intro s i hs
  refine ⟨_, exec_of_driven hs i, ?_⟩
  rw [State.shows_out, outputsOf_eq_operate]
  exact (operate_op i s.inp (encode i)).symm

/-- Settles O4: the carry-in's count does not fit its port (R37). -/
theorem carryInOtherThanZeroOrOneIsRefused : Obligations.CarryInOtherThanZeroOrOneIsRefused := by
  intro outs x y k hk
  have hfit : Operand.fits .cin (.count k) = false := decide_eq_false (Nat.not_lt.2 hk)
  simp [Line.wellFormed, Instr.reads, operandsFit, hfit]

/-- Settles O22: an operation and a step are evaluations, which write no input. -/
theorem noOperationWritesAnInput : Obligations.NoOperationWritesAnInput := by
  rintro s t (⟨i, h⟩ | h)
  · rw [exec_eq_evaluate] at h; exact evaluate_frame h
  · rw [step_eq_evaluate] at h; exact evaluate_frame h

end Sys2Proof.Machine
end

section
/-! The memory family (20_memory.md): held outputs and their sampling (R58), and the copies of the block in a bank (R62). -/

namespace Sys2Proof.Machine

/-! ## Held inputs: evaluating again and sampling (R58) -/

theorem sampled_of_settled {s : State} (h : s.settled = true) : s.sampled = s.out := by
  rw [State.sampled, sample_of_settled h]

/-- Ports that already show the block's function of their driven inputs are a fixed point of the step. -/
theorem step_shows_coreOutputs {s : State} (h : s.driven.all = true) :
    step (s.shows (coreOutputs s.inp)) = .next (s.shows (coreOutputs s.inp)) := by
  have hd : (s.shows (coreOutputs s.inp)).driven.all = true := h
  rw [step_of_driven hd, State.shows_shows, State.shows_inp]

/-! ## The bank: one event on one copy (R62, log entry 11) -/

theorem bankStep_of_getElem? {bank : List State} {k : Nat} {s t : State} (hk : bank[k]? = some s)
    (hs : step s = .next t) : bankStep bank k = .next (bank.set k t) := by
  simp only [bankStep, hk, hs]

theorem bankStep_of_no_copy {bank : List State} {k : Nat} (hk : bank[k]? = none) : bankStep bank k = .next bank := by
  simp only [bankStep, hk]

theorem bankAct_getElem?_ne (bank : List State) {k j : Nat} (hj : j ≠ k) (h : HostAct) :
    (bankAct bank k h)[j]? = bank[j]? :=
  List.getElem?_modify_ne _ bank hj.symm

theorem bankAct_getElem?_self (bank : List State) (k : Nat) (h : HostAct) :
    (bankAct bank k h)[k]? = (bank[k]?).map fun s => s.act h :=
  List.getElem?_modify_eq _ k bank

/-! ## The obligations -/

/-- Settles O29: a step shows the block's function of the held inputs, which the next step shows again; a sampling of settled
outputs is the state itself. -/
theorem settledOutputsStayWhileInputsAreHeld : Obligations.SettledOutputsStayWhileInputsAreHeld := by
  intro s hs
  have hset := State.shows_settled s (coreOutputs s.inp)
  have hsample := sample_of_settled hset
  have hread := sampled_of_settled hset
  exact ⟨_, step_of_driven hs, State.shows_inp s _, hset, coreOutputs_meetsRules s.inp, step_shows_coreOutputs hs,
    hsample, hread, by rw [hsample, hread]⟩

/-- Settles O31: a step replaces the one entry of its copy by that copy's own step, or no entry when there is no such copy; an act
of the host modifies that one entry. -/
theorem copiesOfTheBlockDoNotInteract : Obligations.CopiesOfTheBlockDoNotInteract := by
  intro bank k
  refine ⟨?_, fun h => ⟨fun j hj => bankAct_getElem?_ne bank hj h, bankAct_getElem?_self bank k h⟩⟩
  cases hk : bank[k]? with
  | none => exact ⟨bank, bankStep_of_no_copy hk, rfl, fun _ _ => rfl, nofun⟩
  | some s =>
    obtain ⟨t, ht⟩ := step_total s
    have hlt : k < bank.length := (List.getElem?_eq_some_iff.1 hk).1
    refine ⟨bank.set k t, bankStep_of_getElem? hk ht, List.length_set, fun j hj => List.getElem?_set_ne hj.symm, ?_⟩
    rintro _ ⟨⟩
    exact ⟨t, ht, List.getElem?_set_self hlt⟩

end Sys2Proof.Machine
end

section
/-! The encoding family (30_encoding.md): the opcode map (R65), and an assembler line put on the ports and read back (R69, R70). -/

namespace Sys2Proof.Machine

/-! ## The select (R65) -/

/-- A code selects an operation exactly when it is that operation's select. -/
theorem decode_eq_operation_iff {op : OpCode} {i : Instr} : decode op = .operation i ↔ op = encode i := by
  refine ⟨fun h => ?_, fun h => h ▸ decode_encode i⟩
  obtain hr | ⟨j, rfl⟩ := decode_cases op
  · rw [hr] at h; cases h
  · rw [decode_encode] at h; cases h; rfl

/-! ## One operand on one port (R69) -/

/-- Two sets of levels agree on a port exactly when the port is written as the same operand: a pair of halves loses nothing. -/
theorem samePort_iff_operand_eq {p q : Inputs} {port : InPort} :
    samePort p q port = true ↔ p.operand port = q.operand port := by
  have halves (x y : Nat) : x / 2 ^ 64 = y / 2 ^ 64 ∧ x % 2 ^ 64 = y % 2 ^ 64 ↔ x = y := by omega
  cases port with
  | a | b => simp only [samePort, Inputs.operand, beq_iff_eq, Operand.pair.injEq, halves, BitVec.toNat_inj]
  | op | cin | n => simp only [samePort, Inputs.operand, beq_iff_eq, Operand.count.injEq, BitVec.toNat_inj]

/-- Every port has levels of its own. -/
theorem put_operand_of_ne {port port' : InPort} (h : port' ≠ port) (q : Inputs) (v : Nat) :
    (q.put port v).operand port' = q.operand port' := by
  cases port <;> cases port' <;> trivial

/-- A 128-bit port that takes the number of a pair or of a literal shows its two halves (R25). -/
theorem canonical_eq_pair_of_fits {port : InPort} (hport : port = .a ∨ port = .b) {x : Operand}
    (h : x.fits port = true) : x.canonical =
      .pair ((BitVec.ofNat 128 x.value).toNat / 2 ^ 64) ((BitVec.ofNat 128 x.value).toNat % 2 ^ 64) := by
  cases x with
  | pair high low =>
    simp only [Operand.canonical, Operand.value, BitVec.toNat_ofNat, Operand.pair.injEq]
    omega
  | hex v =>
    have hv : v < 2 ^ 128 := by obtain rfl | rfl := hport <;> exact of_decide_eq_true h
    rw [Operand.value, BitVec.toNat_ofNat, Nat.mod_eq_of_lt hv, Operand.canonical]
  | count k => obtain rfl | rfl := hport <;> cases h

/-- An operand that fits a port is what the port reads back as, in canonical form. -/
theorem put_operand_self {port : InPort} {x : Operand} (h : x.fits port = true) (q : Inputs) :
    (q.put port x.value).operand port = x.canonical := by
  cases port with
  | a => exact (canonical_eq_pair_of_fits (.inl rfl) h).symm
  | b => exact (canonical_eq_pair_of_fits (.inr rfl) h).symm
  | cin | n =>
    cases x with
    | count k => exact congrArg Operand.count (Nat.mod_eq_of_lt (of_decide_eq_true h))
    | pair | hex => cases h
  | op => cases x <;> cases h

/-! ## A list of operands on its ports -/

theorem putOperands_operand_of_not_mem {port : InPort} {ports : List InPort} (h : port ∉ ports) (xs : List Operand)
    (q : Inputs) : (putOperands ports xs q).operand port = q.operand port := by
  induction ports generalizing xs q with
  | nil => rfl
  | cons port' ports ih =>
    cases xs with
    | nil => rfl
    | cons x xs =>
      rw [putOperands, ih (List.not_mem_of_not_mem_cons h), put_operand_of_ne (List.ne_of_not_mem_cons h)]

/-- On ports that are all different, no operand overwrites another. -/
theorem map_operand_putOperands {ports : List InPort} (hnodup : ports.Nodup) {xs : List Operand}
    (hfit : operandsFit ports xs = true) (q : Inputs) :
    ports.map (putOperands ports xs q).operand = xs.map Operand.canonical := by
  induction ports generalizing xs q with
  | nil =>
    cases xs with
    | nil => rfl
    | cons => cases hfit
  | cons port ports ih =>
    obtain ⟨hport, hports⟩ := List.nodup_cons.1 hnodup
    cases xs with
    | nil => cases hfit
    | cons x xs =>
      obtain ⟨hx, hxs⟩ := (Bool.and_eq_true _ _).mp hfit
      rw [putOperands, List.map_cons, List.map_cons, putOperands_operand_of_not_mem hport, put_operand_self hx, ih hports hxs]

/-! ## A line on the ports (R70) -/

theorem reads_nodup (i : Instr) : i.reads.Nodup := by cases i <;> decide

theorem op_not_mem_reads (i : Instr) : InPort.op ∉ i.reads := by cases i <;> decide

theorem wellFormed_iff {l : Line} :
    l.wellFormed = true ↔ l.outputs = l.instr.drives ∧ operandsFit l.instr.reads l.operands = true := by
  rw [Line.wellFormed, Bool.and_eq_true, beq_iff_eq]

/-- A line's operands leave its select on `op`. -/
theorem ports_op (l : Line) (held : Inputs) : (l.ports held).op = encode l.instr :=
  eq_of_beq (samePort_iff_operand_eq.2 (putOperands_operand_of_not_mem (op_not_mem_reads l.instr) l.operands _))

theorem ports_operand_of_not_read {l : Line} {port : InPort} (hop : port ≠ .op) (h : port ∉ l.instr.reads) (held : Inputs) :
    (l.ports held).operand port = held.operand port := by
  rw [Line.ports, putOperands_operand_of_not_mem h]
  cases port with
  | op => exact absurd rfl hop
  | a | b | cin | n => rfl

theorem readLine_of_op {p : Inputs} {i : Instr} (h : p.op = encode i) :
    readLine p = some { outputs := i.drives, instr := i, operands := i.reads.map p.operand } := by
  rw [readLine, h, decode_encode]

theorem readLine_ports {l : Line} (h : l.wellFormed = true) (held : Inputs) :
    readLine (l.ports held) = some l.canonical := by
  obtain ⟨houtputs, hfit⟩ := wellFormed_iff.1 h
  have hoperands : l.instr.reads.map (l.ports held).operand = l.operands.map Operand.canonical :=
    map_operand_putOperands (reads_nodup l.instr) hfit _
  rw [readLine_of_op (ports_op l held), hoperands, ← houtputs, Line.canonical]

/-! ## The obligations -/

/-- Settles O3: every operand survives on its own port, the select on `op`, and a port not read keeps its level. -/
theorem linePutOnThePortsReadsBack : Obligations.LinePutOnThePortsReadsBack :=
  fun _ held hwf => ⟨readLine_ports hwf held, fun _ hop hread =>
    samePort_iff_operand_eq.2 (ports_operand_of_not_read hop hread held)⟩

/-- Settles O1: the map of R65, code by code. -/
theorem opcodeMapSelectsTheOperations : Obligations.OpcodeMapSelectsTheOperations := by
  unfold Obligations.OpcodeMapSelectsTheOperations
  decide

/-- Settles O2: a code is reserved or one operation's select. -/
theorem selectDecodesToItsOperationAlone : Obligations.SelectDecodesToItsOperationAlone :=
  ⟨decode_encode, fun _ _ => decode_eq_operation_iff.1⟩

/-- Settles O5: the operation's branch of the step. -/
theorem stepRunsTheDecodedOperation : Obligations.StepRunsTheDecodedOperation := by
  intro s i h
  rw [step, h]

end Sys2Proof.Machine
end

section
/-! The compare family (40_compare.md): CMP as the sign of the difference (R83) and a strict total order (R84), and ISZ (R82, R85). -/

namespace Sys2Proof.Machine

/-- With every input driven an operation, and a step with its select, show the operation's function of the inputs. -/
theorem exec_and_step_of_driven {s : State} (h : s.driven.all = true) (i : Instr) {o : Outputs}
    (ho : operate i s.inp = o) :
    exec i s = .next (s.shows o) ∧ (s.inp.op = encode i → step s = .next (s.shows o)) := by
  subst ho
  exact ⟨exec_of_driven h i, fun hop => by rw [step_of_driven h, coreOutputs_of_operation hop]⟩

/-! ## CMP: the integer it stands for and the pattern it drives -/

/-- R83: the comparison of the halves is the sign of the difference of the whole values. -/
theorem compare128_eq_sign (x y : Uint128) : compare128 x y = Int.sign ((x.toNat : Int) - (y.toNat : Int)) := by
  rw [compare128_spec]
  split_ifs with hgt hlt
  · exact (Int.sign_eq_one_of_pos (by omega)).symm
  · exact (Int.sign_eq_neg_one_of_neg (by omega)).symm
  · exact (Int.sign_eq_zero_iff_zero.2 (by omega)).symm

/-- R40: the host reads back the comparison that the pattern stands for. -/
theorem readCmp_cmpCode_compare128 (x y : Uint128) : readCmp (cmpCode (compare128 x y)) = .ok (compare128 x y) := by
  rw [compare128_spec]
  split_ifs <;> rfl

/-- What the host reads on `cmp`, whatever the inputs that CMP does not read carry. -/
theorem outputsOf_cmp_cmp (x y : Uint128) (c : Bit) (n : ShAmt) : (outputsOf .cmp x y c n).cmp =
    if y.toNat < x.toNat then 0b01#2 else if x.toNat < y.toNat then 0b11#2 else 0b00#2 := by
  rw [outputsOf_eq_operate]; exact cmpCode_compare128 x y

theorem outputsOf_cmp_greater_iff {x y : Uint128} {c : Bit} {n : ShAmt} :
    (outputsOf .cmp x y c n).cmp = 0b01#2 ↔ y < x := by
  rw [outputsOf_cmp_cmp, BitVec.lt_def]
  split_ifs with hgt hlt
  · exact iff_of_true rfl hgt
  · exact iff_of_false (by decide) hgt
  · exact iff_of_false (by decide) hgt

theorem outputsOf_cmp_less_iff {x y : Uint128} {c : Bit} {n : ShAmt} :
    (outputsOf .cmp x y c n).cmp = 0b11#2 ↔ x < y := by
  rw [outputsOf_cmp_cmp, BitVec.lt_def]
  split_ifs with hgt hlt
  · exact iff_of_false (by decide) (Nat.lt_asymm hgt)
  · exact iff_of_true rfl hlt
  · exact iff_of_false (by decide) hlt

theorem outputsOf_cmp_equal_iff {x y : Uint128} {c : Bit} {n : ShAmt} :
    (outputsOf .cmp x y c n).cmp = 0b00#2 ↔ x = y := by
  rw [outputsOf_cmp_cmp, ← BitVec.toNat_inj (x := x)]
  split_ifs with hgt hlt
  · exact iff_of_false (by decide) hgt.ne'
  · exact iff_of_false (by decide) hlt.ne
  · exact iff_of_true rfl (by omega)

/-! ## ISZ -/

/-- R34: zero is the one value with both halves zero. -/
theorem zeroFlag_eq_ite_halves (x : Uint128) :
    zeroFlag x = if x.toNat / 2 ^ 64 = 0 ∧ x.toNat % 2 ^ 64 = 0 then 1#1 else 0#1 := by
  have hzero : x.toNat = 0 ↔ x.toNat / 2 ^ 64 = 0 ∧ x.toNat % 2 ^ 64 = 0 := by omega
  rw [zeroFlag_spec]
  exact if_congr hzero rfl rfl

theorem zeroFlag_eq_one_iff (x : Uint128) : zeroFlag x = 1#1 ↔ x = 0#128 := by
  rw [zeroFlag_spec, ← BitVec.toNat_inj (x := x)]
  split_ifs with hzero
  · exact iff_of_true rfl hzero
  · exact iff_of_false (by decide) hzero

/-- What the host reads on `zf`, whatever the inputs that ISZ does not read carry. -/
theorem outputsOf_isz_zf (x b : Uint128) (c : Bit) (n : ShAmt) : (outputsOf .isz x b c n).zf = zeroFlag x := by
  rw [outputsOf_eq_operate]; rfl

/-! ## The obligations -/

/-- Settles O7: the pattern of the comparison, which reads as the sign of the difference. -/
theorem cmpGivesTheSignOfTheDifference : Obligations.CmpGivesTheSignOfTheDifference := by
  intro s hs
  have hcode := cmpCode_compare128 s.inp.a s.inp.b
  obtain ⟨hexec, hstep⟩ :=
    exec_and_step_of_driven hs .cmp (congrArg (fun code => { Outputs.zero with cmp := code }) hcode)
  refine ⟨hexec, hstep, (congrArg readCmp hcode).symm.trans ?_⟩
  rw [readCmp_cmpCode_compare128, compare128_eq_sign]

/-- Settles O8: the flag by halves is the flag of the whole value. -/
theorem iszIsOneExactlyForZero : Obligations.IszIsOneExactlyForZero := by
  intro s hs
  have hflag := zeroFlag_eq_ite_halves s.inp.a
  obtain ⟨hexec, hstep⟩ :=
    exec_and_step_of_driven hs .isz (congrArg (fun flag => { Outputs.zero with zf := flag }) hflag)
  exact ⟨hexec, hstep, hflag ▸ zeroFlag_eq_one_iff s.inp.a⟩

/-- Settles O32: the patterns of CMP are the order of the values, which is a linear order. -/
theorem compareIsAStrictTotalOrder : Obligations.CompareIsAStrictTotalOrder := by
  intro x y z c n
  refine ⟨outputsOf_cmp_equal_iff.2 rfl, outputsOf_cmp_less_iff.trans outputsOf_cmp_greater_iff.symm,
    outputsOf_cmp_equal_iff, fun hxy hyz => ?_, ?_⟩
  · exact outputsOf_cmp_less_iff.2 (BitVec.lt_trans (outputsOf_cmp_less_iff.1 hxy) (outputsOf_cmp_less_iff.1 hyz))
  · rw [outputsOf_cmp_less_iff, outputsOf_cmp_less_iff, BitVec.lt_def, BitVec.lt_def, ← BitVec.toNat_inj]
    exact Nat.lt_trichotomy x.toNat y.toNat

/-- Settles O33: both say that the value is zero. -/
theorem iszAgreesWithCompareToZero : Obligations.IszAgreesWithCompareToZero := by
  intro x b c c' n n'
  rw [outputsOf_isz_zf, zeroFlag_eq_one_iff, outputsOf_cmp_equal_iff]

end Sys2Proof.Machine
end

section
/-! The logic family (41_logic.md): AND, ANDN, OR, XOR and NOT on the whole vectors (R91 to R95), and their laws (R96). -/

namespace Sys2Proof.Machine

/-! ## What the host reads on `r`, whatever the inputs that the operation does not read carry -/

theorem outputsOf_and_r (x y : Uint128) (c : Bit) (n : ShAmt) : (outputsOf .and x y c n).r = x &&& y := by
  rw [outputsOf_eq_operate]; exact and128_spec x y

theorem outputsOf_andn_r (x y : Uint128) (c : Bit) (n : ShAmt) : (outputsOf .andn x y c n).r = x &&& ~~~y := by
  rw [outputsOf_eq_operate]; exact andn128_spec x y

theorem outputsOf_or_r (x y : Uint128) (c : Bit) (n : ShAmt) : (outputsOf .or x y c n).r = x ||| y := by
  rw [outputsOf_eq_operate]; exact or128_spec x y

theorem outputsOf_xor_r (x y : Uint128) (c : Bit) (n : ShAmt) : (outputsOf .xor x y c n).r = x ^^^ y := by
  rw [outputsOf_eq_operate]; exact xor128_spec x y

theorem outputsOf_not_r (x b : Uint128) (c : Bit) (n : ShAmt) : (outputsOf .not x b c n).r = ~~~x := by
  rw [outputsOf_eq_operate]; exact not128_spec x

/-! ## The obligations -/

/-- Settles O9: each operation's halfword form is the operator on the whole vectors, which an operation and a step with its
select show on `r` alone. -/
theorem logicUnitActsOnTheWholeVectors : Obligations.LogicUnitActsOnTheWholeVectors := by
  intro s hs
  exact ⟨exec_and_step_of_driven hs .and (congrArg onlyR (and128_spec s.inp.a s.inp.b)),
    exec_and_step_of_driven hs .andn (congrArg onlyR (andn128_spec s.inp.a s.inp.b)),
    exec_and_step_of_driven hs .or (congrArg onlyR (or128_spec s.inp.a s.inp.b)),
    exec_and_step_of_driven hs .xor (congrArg onlyR (xor128_spec s.inp.a s.inp.b)),
    exec_and_step_of_driven hs .not (congrArg onlyR (not128_spec s.inp.a))⟩

/-- Settles O34: read as operators on the whole vectors, ANDN is AND with the complement by its own rule (R92), and the other laws
are those of the bitwise operators. -/
theorem logicLaws : Obligations.LogicLaws := by
  intro x y z b c n
  simp only [outputsOf_and_r, outputsOf_andn_r, outputsOf_or_r, outputsOf_xor_r, outputsOf_not_r, true_and]
  refine ⟨⟨?_, ?_, ?_⟩, ⟨?_, ?_, ?_⟩, ?_, ?_, ?_⟩
  · exact BitVec.and_comm x y
  · exact BitVec.or_comm x y
  · exact BitVec.xor_comm x y
  · exact BitVec.and_assoc x y z
  · exact BitVec.or_assoc x y z
  · exact BitVec.xor_assoc x y z
  · exact BitVec.not_not
  · exact BitVec.xor_self
  · exact BitVec.toNat_not

end Sys2Proof.Machine
end

section
/-! The shift family (42_shift.md): SHL and SHR by powers of two (R103), shifting right and back (R104), amounts of 128 or more (R105),
and the rotation composed from shifts (R106). -/

namespace Sys2Proof.Machine

/-! ## What the host reads on `r`, whatever the inputs that the operation does not read carry -/

theorem outputsOf_shl_r (x b : Uint128) (c : Bit) (n : ShAmt) : (outputsOf .shl x b c n).r = x <<< n.toNat := by
  rw [outputsOf_eq_operate]; exact shl128_eq x n.toNat

theorem outputsOf_shr_r (x b : Uint128) (c : Bit) (n : ShAmt) : (outputsOf .shr x b c n).r = x >>> n.toNat := by
  rw [outputsOf_eq_operate]; exact shr128_eq x n.toNat

/-- What the host reads on `cnt` for CTZ, whatever the inputs that it does not read carry. -/
theorem outputsOf_ctz_cnt_toNat (x b : Uint128) (c : Bit) (n : ShAmt) :
    (outputsOf .ctz x b c n).cnt.toNat = trailingZeros128 x := by
  rw [outputsOf_eq_operate]; exact onlyCnt_cnt_toNat (trailingZeros128_le x)

/-! ## Shifting right and back -/

/-- Bit `i` of the mask that clears the low `k` bits. -/
theorem getLsbD_not_lowMask (k i : Nat) :
    (~~~(BitVec.ofNat 128 (2 ^ k - 1))).getLsbD i = (decide (i < 128) && !decide (i < k)) := by
  rw [BitVec.getLsbD_not, BitVec.getLsbD_ofNat, Nat.testBit_two_pow_sub_one]
  by_cases hi : i < 128 <;> simp [hi]

/-- The bits that survive a shift right and back are all but the low `k` (R104). -/
theorem ushiftRight_shiftLeft_eq_and_not (x : Uint128) (k : Nat) :
    x >>> k <<< k = x &&& ~~~(BitVec.ofNat 128 (2 ^ k - 1)) := by
  have hmask : BitVec.allOnes 128 <<< k = ~~~(BitVec.ofNat 128 (2 ^ k - 1)) :=
    BitVec.eq_of_getLsbD_eq fun i hi => by
      rw [getLsbD_not_lowMask, BitVec.getLsbD_shiftLeft, BitVec.getLsbD_allOnes, decide_eq_true (by omega : i - k < 128),
        Bool.and_true]
  rw [BitVec.shiftLeft_ushiftRight, hmask]

/-- Clearing the low `k` bits changes nothing exactly when they are all clear. -/
theorem and_not_lowMask_eq_self_iff {x : Uint128} {k : Nat} (hk : k ≤ 128) :
    x &&& ~~~(BitVec.ofNat 128 (2 ^ k - 1)) = x ↔ ∀ i, i < k → x.getLsbD i = false := by
  simp only [BitVec.eq_of_getLsbD_eq_iff, BitVec.getLsbD_and, getLsbD_not_lowMask]
  constructor
  · intro h i hik
    have hbit := h i (by omega)
    simpa [hik] using hbit.symm
  · intro h i hi
    by_cases hik : i < k
    · rw [h i hik, Bool.false_and]
    · simp [hi, hik]

/-- The low `k` bits are all clear exactly when there are at least `k` trailing zeros (R133). -/
theorem le_trailingZeros128_iff {x : Uint128} {k : Nat} (hk : k ≤ 128) :
    k ≤ trailingZeros128 x ↔ ∀ i, i < k → x.getLsbD i = false := by
  obtain ⟨rfl, hcount⟩ | ⟨hset, hclear⟩ := trailingZeros128_spec x
  · simp [hcount, hk]
  · refine ⟨fun hle i hi => hclear i (by omega), fun h => ?_⟩
    by_contra hlt
    rw [h _ (by omega)] at hset
    cases hset

/-! ## The obligations -/

/-- Settles O10: the three cases of the halfword form compute the product and the quotient by `2^k`, which an operation and a step
with its select show on `r` alone. -/
theorem shiftsMultiplyAndDivideByPowersOfTwo : Obligations.ShiftsMultiplyAndDivideByPowersOfTwo := by
  intro s hs
  exact ⟨⟨_, shl128_toNat s.inp.a s.inp.n.toNat, exec_and_step_of_driven hs .shl rfl⟩,
    ⟨_, shr128_toNat s.inp.a s.inp.n.toNat, exec_and_step_of_driven hs .shr rfl⟩⟩

/-- Settles O36: the amount is the whole value of `n`, so one of 128 or more moves every bit out. -/
theorem largeShiftAmountsGiveZero : Obligations.LargeShiftAmountsGiveZero := by
  intro x b c n hn
  rw [outputsOf_shl_r, outputsOf_shr_r]
  exact ⟨BitVec.shiftLeft_eq_zero hn, BitVec.ushiftRight_eq_zero hn⟩

/-- Settles O35: shifting right and back clears the low bits, which changes nothing exactly when they are trailing zeros. -/
theorem shiftBackClearsTheLowBits : Obligations.ShiftBackClearsTheLowBits := by
  intro x b b' c c' n
  obtain ⟨hshl, hshr⟩ := largeShiftAmountsGiveZero x b c 128#64 (by decide)
  refine ⟨hshl, hshr, fun hn => ?_⟩
  rw [outputsOf_shl_r, outputsOf_shr_r, outputsOf_ctz_cnt_toNat, ushiftRight_shiftLeft_eq_and_not]
  exact ⟨rfl, (and_not_lowMask_eq_self_iff hn.le).trans (le_trailingZeros128_iff hn.le).symm⟩

/-- Settles O38: the six codes after SHR decode to no operation, and the OR of the two shifts is how a left rotation is defined. -/
theorem rotationIsComposedFromShifts : Obligations.RotationIsComposedFromShifts := by
  refine ⟨by decide, fun x b c k m n _ hk hm => ?_⟩
  rw [outputsOf_or_r, outputsOf_shl_r, outputsOf_shr_r, hm, BitVec.rotateLeft_def, Nat.mod_eq_of_lt (by omega)]

end Sys2Proof.Machine
end

section
/-! The addition family (43_addsub.md): ADDC, ADD and INC as sums (R116), SUB and DEC as differences (R117), the relations between them
(R118), their laws (R119), and the chain of ADDC over several words (R120). -/

namespace Sys2Proof.Machine

/-! ## The halfword forms as operators on the whole vectors -/

theorem one128_eq : one128 = 1#128 := BitVec.eq_of_toNat_eq one128_toNat

/-- With no carry-in the chained additions are addition modulo `2^128`. -/
theorem addc128_zero_fst (x y : Uint128) : (addc128 x y 0#1).1 = x + y :=
  BitVec.eq_of_toNat_eq (by rw [addc128_toNat, BitVec.toNat_add, BitVec.toNat_ofNat, Nat.zero_mod, Nat.add_zero])

/-- The borrow between the halves makes the subtractions one modulo `2^128`. -/
theorem sub128_eq (x y : Uint128) : sub128 x y = x - y := by
  apply BitVec.eq_of_toNat_eq
  rw [sub128_toNat, BitVec.toNat_sub, ← Nat.sub_add_comm y.isLt.le]

/-! ## What the host reads, whatever the inputs that the operation does not read carry -/

/-- INC is ADD with the value 1 (R118). -/
theorem outputsOf_inc_eq_add (x b : Uint128) (c c' : Bit) (n n' : ShAmt) :
    outputsOf .inc x b c n = outputsOf .add x 1#128 c' n' := by
  rw [outputsOf_eq_operate, outputsOf_eq_operate]
  exact congrArg (fun one => onlyR (addc128 x one 0#1).1) one128_eq

/-- DEC is SUB with the value 1 (R118). -/
theorem outputsOf_dec_eq_sub (x b : Uint128) (c c' : Bit) (n n' : ShAmt) :
    outputsOf .dec x b c n = outputsOf .sub x 1#128 c' n' := by
  rw [outputsOf_eq_operate, outputsOf_eq_operate]
  exact congrArg (fun one => onlyR (sub128 x one)) one128_eq

theorem outputsOf_add_r (x y : Uint128) (c : Bit) (n : ShAmt) : (outputsOf .add x y c n).r = x + y := by
  rw [outputsOf_eq_operate]; exact addc128_zero_fst x y

theorem outputsOf_inc_r (x b : Uint128) (c : Bit) (n : ShAmt) : (outputsOf .inc x b c n).r = x + 1#128 := by
  rw [outputsOf_inc_eq_add x b c c n n, outputsOf_add_r]

theorem outputsOf_sub_r (x y : Uint128) (c : Bit) (n : ShAmt) : (outputsOf .sub x y c n).r = x - y := by
  rw [outputsOf_eq_operate]; exact sub128_eq x y

theorem outputsOf_dec_r (x b : Uint128) (c : Bit) (n : ShAmt) : (outputsOf .dec x b c n).r = x - 1#128 := by
  rw [outputsOf_dec_eq_sub x b c c n n, outputsOf_sub_r]

/-- R116: the two outputs of ADDC are the exact sum. -/
theorem outputsOf_addc_value (x y : Uint128) (c : Bit) (n : ShAmt) :
    (outputsOf .addc x y c n).r.toNat + 2 ^ 128 * (outputsOf .addc x y c n).cout.toNat =
      x.toNat + y.toNat + c.toNat := by
  rw [outputsOf_eq_operate]; exact addc128_value x y c

/-! ## A chain of ADDC (R120) -/

theorem addChain_length (ws : List (Uint128 × Uint128)) (c : Bit) : (addChain ws c).1.length = ws.length := by
  induction ws generalizing c with
  | nil => rfl
  | cons w ws ih => exact congrArg (· + 1) (ih _)

/-- The carry out of a word has the weight of the next word, which takes it in; so the chain's value is the exact sum. -/
theorem addChain_value (ws : List (Uint128 × Uint128)) (c : Bit) :
    wordsValue (addChain ws c).1 + 2 ^ (128 * ws.length) * (addChain ws c).2.toNat =
      wordsValue (ws.map Prod.fst) + wordsValue (ws.map Prod.snd) + c.toNat := by
  induction ws generalizing c with
  | nil => simp [addChain, wordsValue]
  | cons w ws ih =>
    obtain ⟨x, y⟩ := w
    have hword := outputsOf_addc_value x y c 0#64
    have hrest := ih (outputsOf .addc x y c 0#64).cout
    have hweight : 2 ^ (128 * (ws.length + 1)) = 2 ^ 128 * 2 ^ (128 * ws.length) := by
      rw [Nat.mul_succ, Nat.add_comm, Nat.pow_add]
    simp only [addChain, wordsValue, List.map_cons, List.length_cons, hweight, Nat.mul_assoc]
    omega

/-! ## The obligations -/

/-- Settles O11: the chained additions give the exact sum in the value and the carry, which an operation and a step with its select
show. -/
theorem addcAddIncGiveTheSum : Obligations.AddcAddIncGiveTheSum := by
  intro s hs
  exact ⟨⟨_, _, addc128_value s.inp.a s.inp.b s.inp.cin, addc128_toNat s.inp.a s.inp.b s.inp.cin,
      addc128_carry_iff s.inp.a s.inp.b s.inp.cin, exec_and_step_of_driven hs .addc rfl⟩,
    ⟨_, addc128_toNat s.inp.a s.inp.b 0#1, exec_and_step_of_driven hs .add rfl⟩,
    ⟨_, addc128_one_toNat s.inp.a, exec_and_step_of_driven hs .inc rfl⟩⟩

/-- Settles O12: the exact borrow test makes the chained subtractions the difference, which an operation and a step with its select
show on `r` alone. -/
theorem subDecGiveTheDifference : Obligations.SubDecGiveTheDifference := by
  refine ⟨fun s hs => ?_, fun a b => borrow_iff (lo a) (lo b)⟩
  exact ⟨⟨_, sub128_toInt s.inp.a s.inp.b, exec_and_step_of_driven hs .sub rfl⟩,
    ⟨_, sub128_one_toInt s.inp.a, exec_and_step_of_driven hs .dec rfl⟩⟩

/-- Settles O40: read as operators on the whole vectors, the laws are those of addition and subtraction modulo `2^128`. -/
theorem additionLaws : Obligations.AdditionLaws := by
  intro x y z b c n
  simp only [outputsOf_add_r, outputsOf_inc_r, outputsOf_sub_r, outputsOf_dec_r]
  refine ⟨?_, ?_, ?_, ?_, ?_, ?_⟩
  · exact BitVec.add_comm x y
  · exact BitVec.add_assoc x y z
  · exact BitVec.add_zero x
  · exact BitVec.sub_self x
  · exact BitVec.add_sub_cancel x 1#128
  · exact BitVec.add_sub_cancel x y

/-- Settles O41: a chain gives one word for each pair, and its value is the exact sum. -/
theorem addcChainAddsLongValues : Obligations.AddcChainAddsLongValues :=
  fun ws c => ⟨addChain_length ws c, addChain_value ws c⟩

/-- Settles O39: ADD and ADDC with carry-in 0 have the same `r`, and INC and DEC are ADD and SUB of 1. -/
theorem addIncDecAreSpecialCases : Obligations.AddIncDecAreSpecialCases := by
  intro x y b c c' n n'
  refine ⟨?_, outputsOf_inc_eq_add x b c c' n n', outputsOf_dec_eq_sub x b c c' n n'⟩
  rw [outputsOf_eq_operate, outputsOf_eq_operate]
  rfl

end Sys2Proof.Machine
end

section
/-! The bit count family (44_bitcount.md): BLEN, CTZ and POPC (R133), CLZ (R127), BREV and BSWAP (R132), and their laws (R134 to
R137). -/

namespace Sys2Proof.Machine

/-! ## What an operation with a count shows, and what the host reads -/

/-- An operation that gives a count of at most 128, and a step with its select, show that count on `cnt` alone. -/
theorem exec_and_step_count {s : State} (h : s.driven.all = true) {i : Instr} {k : Nat} (hk : k ≤ 128)
    (hi : operate i s.inp = onlyCnt k) :
    ∃ c : Count, c.toNat = k ∧ exec i s = .next (s.shows { Outputs.zero with cnt := c }) ∧
      (s.inp.op = encode i → step s = .next (s.shows { Outputs.zero with cnt := c })) :=
  ⟨(onlyCnt k).cnt, onlyCnt_cnt_toNat hk, exec_and_step_of_driven h i hi⟩

theorem outputsOf_blen_cnt_toNat (x b : Uint128) (c : Bit) (n : ShAmt) :
    (outputsOf .blen x b c n).cnt.toNat = bitLength128 x := by
  rw [outputsOf_eq_operate]; exact onlyCnt_cnt_toNat (bitLength128_le x)

theorem outputsOf_clz_cnt_toNat (x b : Uint128) (c : Bit) (n : ShAmt) :
    (outputsOf .clz x b c n).cnt.toNat = leadingZeros128 x := by
  rw [outputsOf_eq_operate]; exact onlyCnt_cnt_toNat (leadingZeros128_le x)

theorem outputsOf_popc_cnt_toNat (x b : Uint128) (c : Bit) (n : ShAmt) :
    (outputsOf .popc x b c n).cnt.toNat = setBits x := by
  rw [outputsOf_eq_operate, ← onesCount128_spec]; exact onlyCnt_cnt_toNat (onesCount128_le x)

theorem outputsOf_brev_r (x b : Uint128) (c : Bit) (n : ShAmt) : (outputsOf .brev x b c n).r = reverseBits128 x := by
  rw [outputsOf_eq_operate]; rfl

theorem outputsOf_bswap_r (x b : Uint128) (c : Bit) (n : ShAmt) :
    (outputsOf .bswap x b c n).r = reverseBytes128 x := by
  rw [outputsOf_eq_operate]; rfl

/-! ## The bit length by the bits at and above it -/

theorem bitLength128_le_iff_lt_two_pow {x : Uint128} {k : Nat} : bitLength128 x ≤ k ↔ x.toNat < 2 ^ k := by
  rw [bitLength128_spec x]
  split_ifs with hzero
  · simp [hzero]
  · rw [Nat.succ_le_iff, Nat.log2_lt hzero]

/-- The bits from `k` up are all clear exactly when the bit length is at most `k` (R133). -/
theorem bitLength128_le_iff {x : Uint128} {k : Nat} : bitLength128 x ≤ k ↔ ∀ i, k ≤ i → x.getLsbD i = false := by
  rw [bitLength128_le_iff_lt_two_pow]
  refine ⟨fun hlt i hki => ?_, Nat.lt_pow_two_of_testBit x.toNat⟩
  exact Nat.testBit_lt_two_pow (hlt.trans_le (Nat.pow_le_pow_right two_pos hki))

theorem getLsbD_of_bitLength128_le {x : Uint128} {i : Nat} (h : bitLength128 x ≤ i) : x.getLsbD i = false :=
  bitLength128_le_iff.1 le_rfl i h

theorem bitLength128_pos {x : Uint128} (hx : x ≠ 0#128) : 0 < bitLength128 x := by
  rw [Nat.pos_iff_ne_zero]
  intro hzero
  exact hx (BitVec.eq_of_toNat_eq (Nat.lt_one_iff.1 (bitLength128_le_iff_lt_two_pow.1 hzero.le)))

/-- The bit below the bit length is set: were it clear, one bit fewer would do. -/
theorem getLsbD_bitLength128_sub_one {x : Uint128} (hx : x ≠ 0#128) : x.getLsbD (bitLength128 x - 1) = true := by
  have hpos := bitLength128_pos hx
  by_contra hclear
  have hle : bitLength128 x ≤ bitLength128 x - 1 := bitLength128_le_iff.2 fun i hi => by
    obtain rfl | hlt := hi.eq_or_lt
    · exact Bool.eq_false_iff.2 hclear
    · exact getLsbD_of_bitLength128_le (by omega)
  omega

theorem leadingZeros128_zero : leadingZeros128 0#128 = 128 := by decide

/-- The top `k` bits are all clear exactly when there are at least `k` leading zeros (R127). -/
theorem le_leadingZeros128_iff {x : Uint128} {k : Nat} (hk : k ≤ 128) :
    k ≤ leadingZeros128 x ↔ ∀ i, i < k → x.getLsbD (127 - i) = false := by
  have hsum := leadingZeros128_add_bitLength128 x
  have hlen : k ≤ leadingZeros128 x ↔ bitLength128 x ≤ 128 - k := by omega
  rw [hlen, bitLength128_le_iff]
  constructor
  · exact fun h i hi => h (127 - i) (by omega)
  · intro h i hi
    by_cases h128 : i < 128
    · have hbit := h (127 - i) (by omega)
      rwa [show 127 - (127 - i) = i by omega] at hbit
    · exact x.getLsbD_of_ge i (by omega)

/-! ## The number of set bits -/

theorem mem_filter_getLsbD {x : Uint128} {i : Nat} :
    i ∈ (Finset.range 128).filter (fun i => x.getLsbD i = true) ↔ i < 128 ∧ x.getLsbD i = true := by
  rw [Finset.mem_filter, Finset.mem_range]

/-- Every bit is set in a value or in its complement (R135). -/
theorem setBits_add_setBits_not (x : Uint128) : setBits x + setBits (~~~x) = 128 := by
  have hnot : setBits (~~~x) = ((Finset.range 128).filter fun i => ¬x.getLsbD i = true).card :=
    congrArg Finset.card (Finset.filter_congr fun i hi => by simp [Finset.mem_range.1 hi])
  rw [hnot, setBits, Finset.card_filter_add_card_filter_not, Finset.card_range]

/-- The set bits lie between the trailing zeros and the bit length. -/
theorem trailingZeros128_add_setBits_le {x : Uint128} (hx : x ≠ 0#128) :
    trailingZeros128 x + setBits x ≤ bitLength128 x := by
  have hclear := (le_trailingZeros128_iff (trailingZeros128_le x)).1 le_rfl
  have hbelow : trailingZeros128 x ≤ bitLength128 x := by
    by_contra hlt
    have htop := hclear (bitLength128 x - 1) (by omega)
    rw [getLsbD_bitLength128_sub_one hx] at htop
    cases htop
  have hsub : ((Finset.range 128).filter fun i => x.getLsbD i = true) ⊆
      Finset.Ico (trailingZeros128 x) (bitLength128 x) := by
    intro i hi
    obtain ⟨-, hset⟩ := mem_filter_getLsbD.1 hi
    refine Finset.mem_Ico.2 ⟨?_, ?_⟩ <;> by_contra hout
    · rw [hclear i (by omega)] at hset; cases hset
    · rw [getLsbD_of_bitLength128_le (by omega)] at hset; cases hset
  have hcard : setBits x ≤ bitLength128 x - trailingZeros128 x :=
    (Finset.card_le_card hsub).trans_eq (Nat.card_Ico _ _)
  omega

/-! ## A reversal as an involution of the bit numbers -/

/-- `σ` maps the bit numbers of a 128-bit value to bit numbers and is its own inverse. -/
def IsBitInvolution (σ : Nat → Nat) : Prop := ∀ i, i < 128 → σ i < 128 ∧ σ (σ i) = i

/-- Bit `i` of `y` is bit `σ i` of `x`. -/
def IsRearrangement (σ : Nat → Nat) (x y : Uint128) : Prop := ∀ i, i < 128 → y.getLsbD i = x.getLsbD (σ i)

/-- The bit number that BREV exchanges with `i` (R132). -/
def mirrorBit (i : Nat) : Nat := 127 - i

/-- The bit number that BSWAP exchanges with `i`: the same place in the mirrored byte (R132). -/
def mirrorByte (i : Nat) : Nat := 8 * (15 - i / 8) + i % 8

theorem isBitInvolution_mirrorBit : IsBitInvolution mirrorBit := by
  intro i hi; unfold mirrorBit; omega

theorem isBitInvolution_mirrorByte : IsBitInvolution mirrorByte := by
  intro i hi; unfold mirrorByte; omega

theorem isRearrangement_reverseBits128 (x : Uint128) : IsRearrangement mirrorBit x (reverseBits128 x) :=
  reverseBits128_spec x

theorem isRearrangement_reverseBytes128 (x : Uint128) : IsRearrangement mirrorByte x (reverseBytes128 x) :=
  reverseBytes128_getLsbD x

section
variable {σ : Nat → Nat} {x y z : Uint128}

theorem IsRearrangement.symm (hσ : IsBitInvolution σ) (hy : IsRearrangement σ x y) : IsRearrangement σ y x := by
  intro i hi
  obtain ⟨hlt, hback⟩ := hσ i hi
  rw [hy (σ i) hlt, hback]

theorem IsRearrangement.eq_of_twice (hσ : IsBitInvolution σ) (hy : IsRearrangement σ x y) (hz : IsRearrangement σ y z) :
    z = x :=
  BitVec.eq_of_getLsbD_eq fun i hi => (hz i hi).trans (hy.symm hσ i hi).symm

/-- Every set bit of `y` is a set bit of `x` at its own place. -/
theorem IsRearrangement.setBits_le (hσ : IsBitInvolution σ) (hy : IsRearrangement σ x y) : setBits y ≤ setBits x := by
  refine Finset.card_le_card_of_injOn σ (fun i hi => ?_) (Set.LeftInvOn.injOn (f₁' := σ) fun i hi => ?_)
  · obtain ⟨hlt, hset⟩ := mem_filter_getLsbD.1 hi
    exact mem_filter_getLsbD.2 ⟨(hσ i hlt).1, (hy i hlt).symm.trans hset⟩
  · exact (hσ i (mem_filter_getLsbD.1 hi).1).2

theorem IsRearrangement.setBits_eq (hσ : IsBitInvolution σ) (hy : IsRearrangement σ x y) : setBits y = setBits x :=
  le_antisymm (hy.setBits_le hσ) ((hy.symm hσ).setBits_le hσ)

end

/-- R136. -/
theorem reverseBits128_reverseBits128 (x : Uint128) : reverseBits128 (reverseBits128 x) = x :=
  (isRearrangement_reverseBits128 x).eq_of_twice isBitInvolution_mirrorBit (isRearrangement_reverseBits128 _)

/-- R136. -/
theorem reverseBytes128_reverseBytes128 (x : Uint128) : reverseBytes128 (reverseBytes128 x) = x :=
  (isRearrangement_reverseBytes128 x).eq_of_twice isBitInvolution_mirrorByte (isRearrangement_reverseBytes128 _)

/-- The low `k` bits of the reversal are the top `k` bits of the value, so both counts have the same lower bounds. -/
theorem trailingZeros128_reverseBits128 (x : Uint128) : trailingZeros128 (reverseBits128 x) = leadingZeros128 x := by
  have hiff {k : Nat} (hk : k ≤ 128) : k ≤ trailingZeros128 (reverseBits128 x) ↔ k ≤ leadingZeros128 x := by
    rw [le_trailingZeros128_iff hk, le_leadingZeros128_iff hk]
    exact forall₂_congr fun i hi => by rw [reverseBits128_spec x i (by omega)]
  exact le_antisymm ((hiff (trailingZeros128_le _)).1 le_rfl) ((hiff (leadingZeros128_le x)).2 le_rfl)

theorem leadingZeros128_reverseBits128 (x : Uint128) : leadingZeros128 (reverseBits128 x) = trailingZeros128 x := by
  rw [← trailingZeros128_reverseBits128, reverseBits128_reverseBits128]

/-! ## The obligations -/

/-- Settles O13: the counts by halves are those of the whole value, which an operation and a step with its select show on `cnt`
alone. -/
theorem blenCtzPopcCountTheBits : Obligations.BlenCtzPopcCountTheBits := by
  intro s hs
  obtain ⟨blen, hblen, hblenShown⟩ := exec_and_step_count hs (i := .blen) (bitLength128_le s.inp.a) rfl
  obtain ⟨ctz, hctz, hctzShown⟩ := exec_and_step_count hs (i := .ctz) (trailingZeros128_le s.inp.a) rfl
  obtain ⟨popc, hpopc, hpopcShown⟩ := exec_and_step_count hs (i := .popc) (onesCount128_le s.inp.a) rfl
  refine ⟨⟨blen, ?_, ?_, hblenShown⟩, ⟨ctz, ?_, hctzShown⟩, ⟨popc, ?_, hpopcShown⟩⟩
  · rw [hblen]; exact bitLength128_spec s.inp.a
  · rw [hblen]; exact fun hne => ⟨getLsbD_bitLength128_sub_one hne, fun _ => getLsbD_of_bitLength128_le⟩
  · rw [hctz]; exact trailingZeros128_spec s.inp.a
  · rw [hpopc]; exact onesCount128_spec s.inp.a

/-- Settles O14: the leading zeros and the bit length make up the 128 bits. -/
theorem clzIs128LessTheBitLength : Obligations.ClzIs128LessTheBitLength := by
  intro s hs
  obtain ⟨clz, hclz, hshown⟩ := exec_and_step_count hs (i := .clz) (leadingZeros128_le s.inp.a) rfl
  refine ⟨clz, bitLength128 s.inp.a, bitLength128_spec s.inp.a, ?_, fun hzero => ?_, hshown⟩
  · rw [hclz, leadingZeros128_add_bitLength128]
  · rw [hclz, hzero, leadingZeros128_zero]

/-- Settles O15: reversing each half and exchanging the halves reverses the whole value, which an operation and a step with its
select show on `r` alone. -/
theorem brevBswapReverseByIndex : Obligations.BrevBswapReverseByIndex := by
  intro s hs
  exact ⟨⟨_, reverseBits128_spec s.inp.a, exec_and_step_of_driven hs .brev rfl⟩,
    ⟨_, reverseBytes128_spec s.inp.a, exec_and_step_of_driven hs .bswap rfl⟩⟩

/-- Settles O43: leading zeros and bit length, and set and clear bits, make up the 128 bits; a reversal is its own inverse. -/
theorem countAndReversalLaws : Obligations.CountAndReversalLaws := by
  intro x b c n
  simp only [outputsOf_clz_cnt_toNat, outputsOf_blen_cnt_toNat, outputsOf_popc_cnt_toNat, outputsOf_not_r,
    outputsOf_brev_r, outputsOf_bswap_r]
  exact ⟨leadingZeros128_add_bitLength128 x, setBits_add_setBits_not x, reverseBits128_reverseBits128 x,
    reverseBytes128_reverseBytes128 x⟩

/-- Settles O44: a reversal rearranges the bits, BREV putting the low ones at the top; all set bits of a value lie above its trailing
zeros and below its bit length. -/
theorem reversalExchangesTheZeroCounts : Obligations.ReversalExchangesTheZeroCounts := by
  intro x b c n
  simp only [outputsOf_ctz_cnt_toNat, outputsOf_clz_cnt_toNat, outputsOf_blen_cnt_toNat, outputsOf_popc_cnt_toNat,
    outputsOf_brev_r, outputsOf_bswap_r]
  refine ⟨trailingZeros128_reverseBits128 x, leadingZeros128_reverseBits128 x,
    (isRearrangement_reverseBits128 x).setBits_eq isBitInvolution_mirrorBit,
    (isRearrangement_reverseBytes128 x).setBits_eq isBitInvolution_mirrorByte, fun hne => ?_⟩
  refine ⟨getLsbD_bitLength128_sub_one hne, fun _ => getLsbD_of_bitLength128_le, ?_⟩
  have hsum := leadingZeros128_add_bitLength128 x
  have hbits := trailingZeros128_add_setBits_le hne
  omega

end Sys2Proof.Machine
end

section
/-! The exceptions family (60_exceptions.md): the reserved codes and ILLEGAL_OP (R142), recovery after one (R147), and totality
(R140). -/

namespace Sys2Proof.Machine

/-! ## Assigned codes leave `ill` zero (R142) -/

/-- No operation drives `ill`. -/
theorem operate_ill (i : Instr) (p : Inputs) : (operate i p).ill = 0#1 := operate_zeroAt (ill_not_mem_drives i) p

theorem outputsOf_ill (i : Instr) (a b : Uint128) (cin : Bit) (n : ShAmt) : (outputsOf i a b cin n).ill = 0#1 := by
  rw [outputsOf_eq_operate, operate_ill]

/-- With an assigned code the block's function gives what the host reads for that operation and those operands. -/
theorem coreOutputs_eq_outputsOf {p : Inputs} {i : Instr} (h : p.op = encode i) :
    coreOutputs p = outputsOf i p.a p.b p.cin p.n := by
  rw [coreOutputs_of_operation h, outputsOf_eq_operate, ← h]

/-- Driving all inputs settles the block's function of them at the next step, whatever the ports showed before (R147). -/
theorem step_drive (s : State) (p : Inputs) : step (s.drive p) = .next ((s.drive p).shows (coreOutputs p)) := by
  rw [step_of_driven (by simp), drive_inp]

theorem exec_total (i : Instr) (s : State) : ∃ t, exec i s = .next t := by
  rw [exec_eq_evaluate]
  obtain ⟨-, h⟩ | ⟨-, h⟩ := evaluate_cases s (operate i) <;> exact ⟨_, h⟩

/-! ## The obligations -/

/-- Settles O16: a reserved code shows ILLEGAL_OP's outputs, and an assigned one its operation's, which never drives `ill`. -/
theorem reservedCodesDriveIllAlone : Obligations.ReservedCodesDriveIllAlone := by
  refine ⟨fun s hs hmem => ?_, fun s t i hs hop hstep => ?_⟩
  · obtain ⟨-, -, -, -, -, -, -, -, -, -, -, -, -, -, -, -, -, -, -, -, hreserved⟩ := opcodeMapSelectsTheOperations
    rw [step_of_driven hs, coreOutputs_of_reserved (hreserved _ hmem)]
    rfl
  · rw [step_of_driven hs, coreOutputs_of_operation hop] at hstep
    cases hstep
    exact operate_ill i s.inp

/-- Settles O17: the step before leaves nothing that the step after the drive reads. -/
theorem assignedAfterReservedIsUnaffected : Obligations.AssignedAfterReservedIsUnaffected := by
  intro s t p i _ _ hop
  refine ⟨_, step_drive t p, State.shows_settled _ _, ?_, ?_⟩ <;> rw [State.shows_out, coreOutputs_eq_outputsOf hop]
  exact outputsOf_ill i p.a p.b p.cin p.n

/-- Settles O21: an operation and a step are evaluations, which answer a next state. -/
theorem everyOperationIsTotal : Obligations.EveryOperationIsTotal :=
  fun s => ⟨fun i => exec_total i s, step_total s⟩

end Sys2Proof.Machine
end

section
/-! The reset and hazards family (70_reset_and_hazards.md): power-up and floating inputs (R155 to R157), changed inputs and safe
sampling (R160), and the corner cases of the shifter and the adder (R162, R163). -/

namespace Sys2Proof.Machine

/-! ## Floating inputs (R156, U6) -/

theorem exec_of_floating {s : State} (h : s.driven.all = false) (i : Instr) : exec i s = .next s.redraw := by
  rw [exec_eq_evaluate, evaluate_of_floating h]

theorem step_of_floating {s : State} (h : s.driven.all = false) : step s = .next s.redraw := by
  rw [step_eq_evaluate, evaluate_of_floating h]

/-- The invariant speaks of settled outputs only. -/
theorem inv_of_unsettled {s : State} (h : s.settled = false) : s.Inv := by
  intro hset
  rw [h] at hset
  cases hset

/-! ## What an act of the host does (R160) -/

/-- An act of the host leaves the state as it was, or draws the outputs anew over the new inputs. -/
theorem act_cases (s : State) (h : HostAct) :
    s.act h = s ∨ ∃ p d, s.act h = { s with inp := p, driven := d }.redraw := by
  have change (p : Inputs) (d : Driven) :
      s.setInputs p d = s ∨ ∃ p' d', s.setInputs p d = { s with inp := p', driven := d' }.redraw := by
    obtain ⟨-, -, hsame⟩ | ⟨-, hnew⟩ := setInputs_cases s p d
    · exact .inl hsame
    · exact .inr ⟨p, d, hnew⟩
  cases h with
  | sample =>
    cases hset : s.settled
    · exact .inr ⟨s.inp, s.driven, sample_of_unsettled hset⟩
    · exact .inl (sample_of_settled hset)
  | driveOp | driveA | driveB | driveCin | driveN | release => exact change _ _

/-! ## A driven select (R157, log entry 8) -/

/-- The decoder reads an operation from no number but its select. -/
theorem ofNat_eq_encode_of_decodeTableWord {nbits w : Nat} {i : Instr} (h : decodeTableWord nbits w = some i) :
    BitVec.ofNat 5 w = encode i := by
  rw [← decode_eq_operation_iff]
  unfold decodeTableWord decodeWord at h
  by_cases hw : w < 2 ^ 5
  · rw [if_pos hw] at h
    cases hd : decode (BitVec.ofNat 5 w) with
    | operation j => rw [hd] at h; cases h; rfl
    | reserved => rw [hd] at h; cases h
  · rw [if_neg hw] at h; cases h

theorem withFetchWord_inp (s : State) (nbits w : Nat) :
    (s.withFetchWord nbits w).inp = { s.inp with op := BitVec.ofNat 5 w } :=
  drive_inp s _

/-- After the drive every input is driven, so the next step settles. -/
theorem step_withFetchWord (s : State) (nbits w : Nat) :
    step (s.withFetchWord nbits w) =
      .next ((s.withFetchWord nbits w).shows (coreOutputs { s.inp with op := BitVec.ofNat 5 w })) :=
  step_drive s _

/-! ## Safe runs and what is sampled in them (R160) -/

/-- A host that samples settled ports that meet the invariant reads what the rules give. -/
theorem State.Inv.sampled_meetsRules {s : State} (hinv : s.Inv) (hset : s.settled = true) :
    MeetsRules s.inp s.sampled := by
  obtain ⟨-, hrules⟩ := hinv hset
  rwa [sampled_of_settled hset]

theorem safeRun_host_iff {s : State} {h : HostAct} {es : List Event} :
    safeRun s (.host h :: es) = true ↔ (h = .sample → s.settled = true) ∧ safeRun (s.act h) es = true := by
  rw [safeRun, Bool.and_eq_true, Bool.or_eq_true, bne_iff_ne, imp_iff_not_or]

theorem safeRun_wait {s t : State} (h : step s = .next t) (es : List Event) :
    safeRun s (.wait :: es) = safeRun t es := by
  rw [safeRun, h]

theorem mem_samples_host_iff {s : State} {h : HostAct} {es : List Event} {x : Inputs × Outputs} :
    x ∈ samples s (.host h :: es) ↔ (h = .sample ∧ x = (s.inp, s.sampled)) ∨ x ∈ samples (s.act h) es := by
  rw [samples, List.mem_append]
  by_cases hsample : h = .sample <;> simp [hsample]

theorem samples_wait {s t : State} (h : step s = .next t) (es : List Event) :
    samples s (.wait :: es) = samples t es := by
  rw [samples, h]

/-! ## Shifts by 0 and by 64 (R162) -/

theorem shr64_64 (v : Half) : shr64 v 64 = 0#64 := BitVec.ushiftRight_eq_zero le_rfl

theorem shl64_64 (v : Half) : shl64 v 64 = 0#64 := BitVec.shiftLeft_eq_zero le_rfl

/-- R101: at 64 the second case of the shifter moves the low half over unshifted. -/
theorem shl128_64 (x : Uint128) : shl128 x 64 = pair (lo x) 0#64 :=
  congrArg (pair · 0#64) (BitVec.shiftLeft_zero (lo x))

/-- R102: at 64 the second case of the shifter moves the high half over unshifted. -/
theorem shr128_64 (x : Uint128) : shr128 x 64 = pair 0#64 (hi x) :=
  congrArg (pair 0#64) (BitVec.ushiftRight_zero (hi x))

/-! ## The carry and the borrow between the halves (R163) -/

/-- The high half of the sum takes in the true carry of the low halves. -/
theorem addc128_high (x y : Uint128) (c : Bit) : (addc128 x y c).1.toNat / 2 ^ 64 =
    (x.toNat / 2 ^ 64 + y.toNat / 2 ^ 64 +
      (if 2 ^ 64 ≤ x.toNat % 2 ^ 64 + y.toNat % 2 ^ 64 + c.toNat then 1 else 0)) % 2 ^ 64 := by
  have hc := c.isLt
  rw [addc128_toNat]
  split_ifs <;> omega

/-- The high half of the difference takes off the true borrow of the low halves. -/
theorem sub128_high (x y : Uint128) : (sub128 x y).toNat / 2 ^ 64 =
    (2 ^ 65 + x.toNat / 2 ^ 64 - y.toNat / 2 ^ 64 -
      (if x.toNat % 2 ^ 64 < y.toNat % 2 ^ 64 then 1 else 0)) % 2 ^ 64 := by
  have hx := x.isLt; have hy := y.isLt
  rw [sub128_toNat]
  split_ifs <;> omega

/-! ## The obligations -/

/-- Settles O48, by induction on the events: acts and steps keep the invariant, and a safe run samples settled outputs only, which
the invariant says are what the rules give. -/
theorem safeRunsReadWhatTheRulesGive : Obligations.SafeRunsReadWhatTheRulesGive := by
  intro es
  induction es with
  | nil => exact fun s _ _ x hx => absurd hx List.not_mem_nil
  | cons e es ih =>
    intro s hinv hsafe x hx
    cases e with
    | host a =>
      obtain ⟨hsettled, hrest⟩ := safeRun_host_iff.1 hsafe
      obtain ⟨hsample, rfl⟩ | hlater := mem_samples_host_iff.1 hx
      · exact hinv.sampled_meetsRules (hsettled hsample)
      · exact ih (s.act a) (act_inv hinv a) hrest x hlater
    | wait =>
      obtain ⟨t, ht⟩ := step_total s
      rw [safeRun_wait ht] at hsafe
      rw [samples_wait ht] at hx
      exact ih t (step_inv ht) hsafe x hx

/-- Settles O20: an act that does not leave the state as it was draws the outputs anew. -/
theorem changedInputUnsettlesTheOutputs : Obligations.ChangedInputUnsettlesTheOutputs := by
  intro s h hchange
  obtain hsame | ⟨p, d, hnew⟩ := act_cases s h
  · rw [hsame] at hchange
    obtain hinp | hdriven := hchange
    · exact absurd rfl hinp
    · exact absurd rfl hdriven
  · rw [hnew]; exact ⟨rfl, rfl⟩

/-- Settles O42: the chained halves give the whole sum and difference, whose high halves take in the true carry and borrow. -/
theorem interHalfCarryAndBorrowAreExact : Obligations.InterHalfCarryAndBorrowAreExact := by
  intro a b c n
  rw [outputsOf_eq_operate, outputsOf_eq_operate]
  exact ⟨addc128_high a b c, sub128_high a b⟩

/-- Settles O6: the drive puts the operation's select on `op` and leaves no input floating. -/
theorem drivenSelectIsTheNextOperation : Obligations.DrivenSelectIsTheNextOperation := by
  intro s i nbits w hdecode
  have hinp : (s.withFetchWord nbits w).inp = { s.inp with op := encode i } := by
    rw [withFetchWord_inp, ofNat_eq_encode_of_decodeTableWord hdecode]
  refine ⟨hinp, stepRunsTheDecodedOperation _ i ?_, _, step_withFetchWord s nbits w, State.shows_settled _ _⟩
  rw [hinp, decode_encode]

/-- Settles O18: power-up drives nothing, so a step there leaves the outputs unspecified. -/
theorem powerUpHasSettledNothing : Obligations.PowerUpHasSettledNothing :=
  ⟨rfl, rfl, step_of_floating Driven.none_all⟩

/-- Settles O19: an operation and a step are evaluations, which with a floating input draw the outputs anew. -/
theorem floatingInputLeavesOutputsUnspecified : Obligations.FloatingInputLeavesOutputsUnspecified :=
  fun _ hs => ⟨exec_of_floating hs, step_of_floating hs⟩

/-- Settles O37: a shift by 0 moves no bit, and both carry terms are a half shifted by its whole width. -/
theorem shiftByZeroIsANoOp : Obligations.ShiftByZeroIsANoOp := by
  intro x b c
  simp only [outputsOf_shl_r, outputsOf_shr_r]
  refine ⟨?_, ?_, shr64_64 (lo x), shl64_64 (hi x), ?_, ?_⟩
  · exact BitVec.shiftLeft_zero x
  · exact BitVec.ushiftRight_zero x
  · exact (shl128_eq x 64).symm.trans (shl128_64 x)
  · exact (shr128_eq x 64).symm.trans (shr128_64 x)

/-- Settles O45: at power-up nothing has settled. -/
theorem invariantHoldsAtPowerUp : Obligations.InvariantHoldsAtPowerUp := by
  obtain ⟨hunsettled, -, -⟩ := powerUpHasSettledNothing
  exact inv_of_unsettled hunsettled

end Sys2Proof.Machine
end
